-- ==== Sys2Proof/Word.lean ====
section
/-! DEFINITION. The machine's word and byte (00_scope.md R7, R10). -/

namespace Sys2Proof

/-- A register value, an address or an instruction word: 32 bits, without a sign of its own (R10). -/
abbrev Word := BitVec 32

/-- A byte: 8 bits (R7). -/
abbrev Byte := BitVec 8

end Sys2Proof
end

