-- ==== Sys2Proof/Config.lean ====
section
/-! DEFINITION. What the implementation and the loader fix (00_scope.md R8), and the free value the spec
leaves open: the answers of extension handlers (46_system.md R211). -/

namespace Sys2Proof

/-- The launch parameters of 00_scope.md R8 that do not change while a program runs. `ENTRY_PC`,
`INIT_REGS` and `INIT_MEM` are the pc, the registers and the memory of the start state. -/
structure Launch where
  /-- `MEMLEN`: the length of the program's memory in bytes. -/
  memLen : Nat
  /-- `TEXT_START`: the first byte of the text segment. -/
  textStart : Nat
  /-- `TEXT_END`: the first byte after the text segment. -/
  textEnd : Nat
  /-- The half-open ranges `lo ≤ a < hi` that `ReadOnly` holds on besides the text segment (R42): rodata, and
  wherever else the loader says. -/
  readOnlyRanges : List (Nat × Nat)
  /-- The ids `EXT` is defined at besides 0x00000003 (R8, R211). -/
  extensions : List Word
  /-- `CHECK_EXT_YES` (R212). DESIGN CHOICE of the spec (D14), log 14. -/
  checkExtYes : Word
  /-- `CHECK_EXT_NO` (R212). DESIGN CHOICE of the spec (D14), log 14. -/
  checkExtNo : Word
  deriving DecidableEq, Repr

/-- What an extension handler answers (R211): `err`, or one value and the bytes it writes. -/
inductive ExtAnswer where
  | err
  | ok (value : Word) (writes : List Host.Cell)
  deriving DecidableEq, Repr, Inhabited

/-- FREE VALUE (log 15). The answer of the `draw`-th handler call, for the extension `id` on `input` and the memory
`mem`. It has no body: nothing can be proved of what a handler answers, and every answer R211 allows is some value of
it. Unsafe only in that a handler always answers (D15). -/
opaque Config.extAnswer (launch : Launch) (draw : Nat) (id input : Word) (mem : List Host.Cell) : ExtAnswer

end Sys2Proof
end

