-- ==== Sys2Proof/Syntax.lean ====
section
/-! DEFINITION. The registers and the instructions of the machine (10_state.md R20 to R22; 30_encoding.md R75): one
constructor of `Instr` for each row of opcode_table.json, with the operands of that row in the order of R82. A field an
instruction does not use is no operand of it (R79). -/

namespace Sys2Proof

/-- The eight registers "in order: Z, A, B, C, R, S, X, Y" (R22). -/
inductive Reg where
  | Z | A | B | C | R | S | X | Y
  deriving DecidableEq, Repr

/-- The instructions. `imm16` is the immediate before its sign extension (R71, R73). -/
inductive Instr where
  /-- Opcode 0x00, "Missing or invalid instruction" (R213), and the unassigned opcodes (R214): the opcode and the word's
  other 25 bits, none of which matters. -/
  | invalid (opcode : BitVec 7) (rest : BitVec 25)
  /-- Bitwise AND (and, 0x04): R101. -/
  | and (rd rs1 rs2 : Reg)
  /-- Bitwise OR (or, 0x05): R102. -/
  | or (rd rs1 rs2 : Reg)
  /-- Bitwise XOR (xor, 0x06): R103. -/
  | xor (rd rs1 rs2 : Reg)
  /-- Subtract (sub, 0x07): R104. -/
  | sub (rd rs1 rs2 : Reg)
  /-- Set minimum signed (min, 0x08): R105. -/
  | min (rd rs1 rs2 : Reg)
  /-- Set minimum unsigned (minu, 0x09): R106. -/
  | minu (rd rs1 rs2 : Reg)
  /-- Set to maximum signed (max, 0x0a): R107. -/
  | max (rd rs1 rs2 : Reg)
  /-- Set to maximum unsigned (maxu, 0x0b): R108. -/
  | maxu (rd rs1 rs2 : Reg)
  /-- Set if less than signed (slt, 0x0c): R109. -/
  | slt (rd rs1 rs2 : Reg)
  /-- Set if less than unsigned (sltu, 0x0d): R110. -/
  | sltu (rd rs1 rs2 : Reg)
  /-- Multiply and truncate (mul, 0x10): R121. -/
  | mul (rd rs1 rs2 : Reg)
  /-- Multiply signed and shift (mulh, 0x11): R122. -/
  | mulh (rd rs1 rs2 : Reg)
  /-- Multiply unsigned and shift (mulhu, 0x12): R123. -/
  | mulhu (rd rs1 rs2 : Reg)
  /-- Multiply signed by unsigned and shift (mulhsu, 0x13): R124. -/
  | mulhsu (rd rs1 rs2 : Reg)
  /-- Divide signed (div, 0x14): R125. -/
  | div (rd rs1 rs2 : Reg)
  /-- Divide unsigned (divu, 0x15): R126. -/
  | divu (rd rs1 rs2 : Reg)
  /-- Remainder (rem, 0x16): R127. -/
  | rem (rd rs1 rs2 : Reg)
  /-- Remainder unsigned (remu, 0x17): R128. -/
  | remu (rd rs1 rs2 : Reg)
  /-- Reverse byte order (revb, 0x18): R141. -/
  | revb (rd rs1 : Reg)
  /-- Reverse half word order (revh, 0x19): R142. -/
  | revh (rd rs1 : Reg)
  /-- Count leading zeros (clz, 0x1a): R143. -/
  | clz (rd rs1 : Reg)
  /-- Count trailing zeros (ctz, 0x1b): R144. -/
  | ctz (rd rs1 : Reg)
  /-- Count set bits (pcnt, 0x1c): R145. -/
  | pcnt (rd rs1 : Reg)
  /-- Breakpoint (ebreak, 0x3f): R210. -/
  | ebreak
  /-- Bitwise AND immediate (andi, 0x44): R151. -/
  | andi (rd rs1 : Reg) (imm16 : BitVec 16)
  /-- Bitwise OR immediate (ori, 0x45): R152. -/
  | ori (rd rs1 : Reg) (imm16 : BitVec 16)
  /-- Bitwise XOR immediate (xori, 0x46): R153. -/
  | xori (rd rs1 : Reg) (imm16 : BitVec 16)
  /-- Shift logical left (sll, 0x48): R154. -/
  | sll (rd rs1 rs2 : Reg) (imm16 : BitVec 16)
  /-- Shift logical right (srl, 0x49): R155. -/
  | srl (rd rs1 rs2 : Reg) (imm16 : BitVec 16)
  /-- Shift arithmetic right (sra, 0x4a): R156. -/
  | sra (rd rs1 rs2 : Reg) (imm16 : BitVec 16)
  /-- Add (add, 0x4b): R157. -/
  | add (rd rs1 rs2 : Reg) (imm16 : BitVec 16)
  /-- Set if less than immediate (slti, 0x4c): R158. -/
  | slti (rd rs1 : Reg) (imm16 : BitVec 16)
  /-- Set if less than immediate unsigned (sltiu, 0x4d): R159. -/
  | sltiu (rd rs1 : Reg) (imm16 : BitVec 16)
  /-- Load upper immediate (lui, 0x4e): R160. -/
  | lui (rd : Reg) (imm16 : BitVec 16)
  /-- Add upper immediate to program counter (auipc, 0x4f): R161. -/
  | auipc (rd : Reg) (imm16 : BitVec 16)
  /-- Load sign-extended byte (lb, 0x50): R172. -/
  | lb (rd rs1 : Reg) (imm16 : BitVec 16)
  /-- Load zero-extended byte (lbu, 0x51): R173. -/
  | lbu (rd rs1 : Reg) (imm16 : BitVec 16)
  /-- Load sign-extended half word (lh, 0x52): R174. -/
  | lh (rd rs1 : Reg) (imm16 : BitVec 16)
  /-- Load zero-extended half word (lhu, 0x53): R175. -/
  | lhu (rd rs1 : Reg) (imm16 : BitVec 16)
  /-- Load word (lw, 0x54): R176. -/
  | lw (rd rs1 : Reg) (imm16 : BitVec 16)
  /-- Store byte (sb, 0x55): R177. -/
  | sb (rs1 rs2 : Reg) (imm16 : BitVec 16)
  /-- Store half word (sh, 0x56): R178. -/
  | sh (rs1 rs2 : Reg) (imm16 : BitVec 16)
  /-- Store word (sw, 0x57): R179. -/
  | sw (rs1 rs2 : Reg) (imm16 : BitVec 16)
  /-- Jump and link (jal, 0x58): R191. -/
  | jal (rd : Reg) (imm16 : BitVec 16)
  /-- Jump and link register (jalr, 0x59): R192. -/
  | jalr (rd rs1 : Reg) (imm16 : BitVec 16)
  /-- Branch if equal (beq, 0x5a): R193. -/
  | beq (rs1 rs2 : Reg) (imm16 : BitVec 16)
  /-- Branch if not equal (bne, 0x5b): R194. -/
  | bne (rs1 rs2 : Reg) (imm16 : BitVec 16)
  /-- Branch if less than signed (blt, 0x5c): R195. -/
  | blt (rs1 rs2 : Reg) (imm16 : BitVec 16)
  /-- Branch if less than unsigned (bltu, 0x5d): R196. -/
  | bltu (rs1 rs2 : Reg) (imm16 : BitVec 16)
  /-- Branch if greater or equal signed (bge, 0x5e): R197. -/
  | bge (rs1 rs2 : Reg) (imm16 : BitVec 16)
  /-- Branch if greater or equal unsigned (bgeu, 0x5f): R198. -/
  | bgeu (rs1 rs2 : Reg) (imm16 : BitVec 16)
  /-- Call extension (ecall, 0x7f): R211. -/
  | ecall (rd rs1 rs2 : Reg) (imm16 : BitVec 16)
  deriving DecidableEq, Repr

end Sys2Proof
end

