-- ==== Sys2Proof/WellFormed.lean ====
section
/-! DEFINITION. Well-formed instructions (30_encoding.md R75, R80) and well-formed launch configurations
(70_reset_and_hazards.md R263). -/

namespace Sys2Proof

/-- The 52 opcodes that the Opcode Listing assigns (R75). -/
def assignedOpcodes : List (BitVec 7) :=
  [0x04#7, 0x05#7, 0x06#7, 0x07#7, 0x08#7, 0x09#7, 0x0a#7, 0x0b#7, 0x0c#7, 0x0d#7, 0x10#7, 0x11#7, 0x12#7,
   0x13#7, 0x14#7, 0x15#7, 0x16#7, 0x17#7, 0x18#7, 0x19#7, 0x1a#7, 0x1b#7, 0x1c#7, 0x3f#7, 0x44#7, 0x45#7,
   0x46#7, 0x48#7, 0x49#7, 0x4a#7, 0x4b#7, 0x4c#7, 0x4d#7, 0x4e#7, 0x4f#7, 0x50#7, 0x51#7, 0x52#7, 0x53#7,
   0x54#7, 0x55#7, 0x56#7, 0x57#7, 0x58#7, 0x59#7, 0x5a#7, 0x5b#7, 0x5c#7, 0x5d#7, 0x5e#7, 0x5f#7, 0x7f#7]

/-- An instruction is well formed when it is some word's decoding. Register fields and immediates have no illegal
values (R80), so the one check is that an `invalid` carries no assigned opcode (R81). -/
def Instr.wellFormed : Instr → Bool
  | .invalid opcode _ => !assignedOpcodes.contains opcode
  | .and .. | .or .. | .xor .. | .sub .. | .min .. | .minu .. | .max .. | .maxu .. | .slt .. | .sltu ..
  | .mul .. | .mulh .. | .mulhu .. | .mulhsu .. | .div .. | .divu .. | .rem .. | .remu .. | .revb ..
  | .revh .. | .clz .. | .ctz .. | .pcnt .. | .ebreak | .andi .. | .ori .. | .xori .. | .sll .. | .srl ..
  | .sra .. | .add .. | .slti .. | .sltiu .. | .lui .. | .auipc .. | .lb .. | .lbu .. | .lh .. | .lhu ..
  | .lw .. | .sb .. | .sh .. | .sw .. | .jal .. | .jalr .. | .beq .. | .bne .. | .blt .. | .bltu .. | .bge ..
  | .bgeu .. | .ecall .. => true

/-- `MEMLEN` is at most 2^31 (R263, constraint 1). -/
def Launch.memLenOk (l : Launch) : Bool := l.memLen ≤ 0x80000000

/-- The text segment is a range inside memory (R263, constraint 2). -/
def Launch.textOk (l : Launch) : Bool := l.textStart ≤ l.textEnd && l.textEnd ≤ l.memLen

/-- `CHECK_EXT_YES` and `CHECK_EXT_NO` are distinct (R8). -/
def Launch.checkExtOk (l : Launch) : Bool := l.checkExtYes != l.checkExtNo

/-- The configuration is a Capsule machine (R263; 93_implementation_defined.md U18). That the text segment is read-only
(constraint 3) and that `EXT` is defined at 0x00000003 (constraint 6) hold of every `Launch` by the way
`isReadOnly` and `extSupported` (Machine/Ops.lean) are defined. -/
def Launch.wellFormed (l : Launch) : Bool := l.memLenOk && l.textOk && l.checkExtOk

end Sys2Proof
end

