-- ==== Sys2Proof/Decode.lean ====
section
/-! DEFINITION. The instruction words: the one format, decoding and encoding (30_encoding.md R70 to R81). -/

namespace Sys2Proof

/-- The number of a register (10_state.md R22), as its 3-bit field. -/
def Reg.bits : Reg → BitVec 3
  | .Z => 0 | .A => 1 | .B => 2 | .C => 3 | .R => 4 | .S => 5 | .X => 6 | .Y => 7

/-- The register a 3-bit field names (R20, R22). -/
def Reg.ofBits (b : BitVec 3) : Reg :=
  match b with
  | 0#3 => .Z | 1#3 => .A | 2#3 => .B | 3#3 => .C | 4#3 => .R | 5#3 => .S | 6#3 => .X | 7#3 => .Y

/-- `w[6:0]` (R71). -/
def opcodeOf (w : Word) : BitVec 7 := w.extractLsb' 0 7

/-- The register named by `w[9:7]` (R71). -/
def rdOf (w : Word) : Reg := Reg.ofBits (w.extractLsb' 7 3)

/-- The register named by `w[12:10]` (R71). -/
def rs1Of (w : Word) : Reg := Reg.ofBits (w.extractLsb' 10 3)

/-- The register named by `w[15:13]` (R71). -/
def rs2Of (w : Word) : Reg := Reg.ofBits (w.extractLsb' 13 3)

/-- `w[31:16]` (R71). -/
def imm16Of (w : Word) : BitVec 16 := w.extractLsb' 16 16

/-- The 25 bits of a word above its opcode. -/
def restOf (w : Word) : BitVec 25 := w.extractLsb' 7 25

/-- The instruction of an opcode with these fields: the opcode map of R75. Every opcode it does not assign is
`invalid` (R77, R78, R81). -/
def instrOf (opcode : BitVec 7) (rd rs1 rs2 : Reg) (imm16 : BitVec 16) (rest : BitVec 25) : Instr :=
  match opcode with
  | 0x04#7 => .and rd rs1 rs2
  | 0x05#7 => .or rd rs1 rs2
  | 0x06#7 => .xor rd rs1 rs2
  | 0x07#7 => .sub rd rs1 rs2
  | 0x08#7 => .min rd rs1 rs2
  | 0x09#7 => .minu rd rs1 rs2
  | 0x0a#7 => .max rd rs1 rs2
  | 0x0b#7 => .maxu rd rs1 rs2
  | 0x0c#7 => .slt rd rs1 rs2
  | 0x0d#7 => .sltu rd rs1 rs2
  | 0x10#7 => .mul rd rs1 rs2
  | 0x11#7 => .mulh rd rs1 rs2
  | 0x12#7 => .mulhu rd rs1 rs2
  | 0x13#7 => .mulhsu rd rs1 rs2
  | 0x14#7 => .div rd rs1 rs2
  | 0x15#7 => .divu rd rs1 rs2
  | 0x16#7 => .rem rd rs1 rs2
  | 0x17#7 => .remu rd rs1 rs2
  | 0x18#7 => .revb rd rs1
  | 0x19#7 => .revh rd rs1
  | 0x1a#7 => .clz rd rs1
  | 0x1b#7 => .ctz rd rs1
  | 0x1c#7 => .pcnt rd rs1
  | 0x3f#7 => .ebreak
  | 0x44#7 => .andi rd rs1 imm16
  | 0x45#7 => .ori rd rs1 imm16
  | 0x46#7 => .xori rd rs1 imm16
  | 0x48#7 => .sll rd rs1 rs2 imm16
  | 0x49#7 => .srl rd rs1 rs2 imm16
  | 0x4a#7 => .sra rd rs1 rs2 imm16
  | 0x4b#7 => .add rd rs1 rs2 imm16
  | 0x4c#7 => .slti rd rs1 imm16
  | 0x4d#7 => .sltiu rd rs1 imm16
  | 0x4e#7 => .lui rd imm16
  | 0x4f#7 => .auipc rd imm16
  | 0x50#7 => .lb rd rs1 imm16
  | 0x51#7 => .lbu rd rs1 imm16
  | 0x52#7 => .lh rd rs1 imm16
  | 0x53#7 => .lhu rd rs1 imm16
  | 0x54#7 => .lw rd rs1 imm16
  | 0x55#7 => .sb rs1 rs2 imm16
  | 0x56#7 => .sh rs1 rs2 imm16
  | 0x57#7 => .sw rs1 rs2 imm16
  | 0x58#7 => .jal rd imm16
  | 0x59#7 => .jalr rd rs1 imm16
  | 0x5a#7 => .beq rs1 rs2 imm16
  | 0x5b#7 => .bne rs1 rs2 imm16
  | 0x5c#7 => .blt rs1 rs2 imm16
  | 0x5d#7 => .bltu rs1 rs2 imm16
  | 0x5e#7 => .bge rs1 rs2 imm16
  | 0x5f#7 => .bgeu rs1 rs2 imm16
  | 0x7f#7 => .ecall rd rs1 rs2 imm16
  | _ => .invalid opcode rest

/-- `Decode` (R81): total on 32-bit words. Fields an instruction does not use are ignored (R79; log 18). -/
def decode (w : Word) : Instr :=
  instrOf (opcodeOf w) (rdOf w) (rs1Of w) (rs2Of w) (imm16Of w) (restOf w)

/-- Why a list of bytes is no instruction. -/
inductive DecodeError where
  /-- Fewer than the four bytes of an instruction (R70). -/
  | truncated
  deriving DecidableEq, Repr

/-- The word stored in four bytes, the byte at the lowest address first (20_memory.md R44). -/
def wordOfBytes (b0 b1 b2 b3 : Byte) : Word := b3 ++ b2 ++ b1 ++ b0

/-- The four bytes of a word, lowest address first (20_memory.md R44). -/
def bytesOfWord (w : Word) : List Byte :=
  [w.extractLsb' 0 8, w.extractLsb' 8 8, w.extractLsb' 16 8, w.extractLsb' 24 8]

/-- The instruction at the front of a list of bytes, with the bytes after it. -/
def decodeBytes : List Byte → Except DecodeError (Instr × List Byte)
  | b0 :: b1 :: b2 :: b3 :: rest => .ok (decode (wordOfBytes b0 b1 b2 b3), rest)
  | _ => .error .truncated

/-- The instruction the decoder reads from the word whose low `nbits` bits are those of `w` and whose other bits
are 0, laid out in memory as R44 says. -/
def decodeTableWord (nbits w : Nat) : Option Instr :=
  match decodeBytes (bytesOfWord (BitVec.ofNat 32 (w % 2 ^ nbits))) with
  | .ok (i, _) => some i
  | .error _ => none

/-- `imm16 ++ rs2 ++ rs1 ++ rd ++ opcode` (R71, R81). -/
def pack (opcode : BitVec 7) (rd rs1 rs2 : Reg) (imm16 : BitVec 16) : Word :=
  imm16 ++ rs2.bits ++ rs1.bits ++ rd.bits ++ opcode

/-- `Encode` (R81): the canonical word, with 0 in every field the instruction does not use (R79). -/
def encode (i : Instr) : Word :=
  match i with
  | .invalid opcode rest => rest ++ opcode
  | .and rd rs1 rs2 => pack 0x04#7 rd rs1 rs2 0
  | .or rd rs1 rs2 => pack 0x05#7 rd rs1 rs2 0
  | .xor rd rs1 rs2 => pack 0x06#7 rd rs1 rs2 0
  | .sub rd rs1 rs2 => pack 0x07#7 rd rs1 rs2 0
  | .min rd rs1 rs2 => pack 0x08#7 rd rs1 rs2 0
  | .minu rd rs1 rs2 => pack 0x09#7 rd rs1 rs2 0
  | .max rd rs1 rs2 => pack 0x0a#7 rd rs1 rs2 0
  | .maxu rd rs1 rs2 => pack 0x0b#7 rd rs1 rs2 0
  | .slt rd rs1 rs2 => pack 0x0c#7 rd rs1 rs2 0
  | .sltu rd rs1 rs2 => pack 0x0d#7 rd rs1 rs2 0
  | .mul rd rs1 rs2 => pack 0x10#7 rd rs1 rs2 0
  | .mulh rd rs1 rs2 => pack 0x11#7 rd rs1 rs2 0
  | .mulhu rd rs1 rs2 => pack 0x12#7 rd rs1 rs2 0
  | .mulhsu rd rs1 rs2 => pack 0x13#7 rd rs1 rs2 0
  | .div rd rs1 rs2 => pack 0x14#7 rd rs1 rs2 0
  | .divu rd rs1 rs2 => pack 0x15#7 rd rs1 rs2 0
  | .rem rd rs1 rs2 => pack 0x16#7 rd rs1 rs2 0
  | .remu rd rs1 rs2 => pack 0x17#7 rd rs1 rs2 0
  | .revb rd rs1 => pack 0x18#7 rd rs1 Reg.Z 0
  | .revh rd rs1 => pack 0x19#7 rd rs1 Reg.Z 0
  | .clz rd rs1 => pack 0x1a#7 rd rs1 Reg.Z 0
  | .ctz rd rs1 => pack 0x1b#7 rd rs1 Reg.Z 0
  | .pcnt rd rs1 => pack 0x1c#7 rd rs1 Reg.Z 0
  | .ebreak => pack 0x3f#7 Reg.Z Reg.Z Reg.Z 0
  | .andi rd rs1 imm16 => pack 0x44#7 rd rs1 Reg.Z imm16
  | .ori rd rs1 imm16 => pack 0x45#7 rd rs1 Reg.Z imm16
  | .xori rd rs1 imm16 => pack 0x46#7 rd rs1 Reg.Z imm16
  | .sll rd rs1 rs2 imm16 => pack 0x48#7 rd rs1 rs2 imm16
  | .srl rd rs1 rs2 imm16 => pack 0x49#7 rd rs1 rs2 imm16
  | .sra rd rs1 rs2 imm16 => pack 0x4a#7 rd rs1 rs2 imm16
  | .add rd rs1 rs2 imm16 => pack 0x4b#7 rd rs1 rs2 imm16
  | .slti rd rs1 imm16 => pack 0x4c#7 rd rs1 Reg.Z imm16
  | .sltiu rd rs1 imm16 => pack 0x4d#7 rd rs1 Reg.Z imm16
  | .lui rd imm16 => pack 0x4e#7 rd Reg.Z Reg.Z imm16
  | .auipc rd imm16 => pack 0x4f#7 rd Reg.Z Reg.Z imm16
  | .lb rd rs1 imm16 => pack 0x50#7 rd rs1 Reg.Z imm16
  | .lbu rd rs1 imm16 => pack 0x51#7 rd rs1 Reg.Z imm16
  | .lh rd rs1 imm16 => pack 0x52#7 rd rs1 Reg.Z imm16
  | .lhu rd rs1 imm16 => pack 0x53#7 rd rs1 Reg.Z imm16
  | .lw rd rs1 imm16 => pack 0x54#7 rd rs1 Reg.Z imm16
  | .sb rs1 rs2 imm16 => pack 0x55#7 Reg.Z rs1 rs2 imm16
  | .sh rs1 rs2 imm16 => pack 0x56#7 Reg.Z rs1 rs2 imm16
  | .sw rs1 rs2 imm16 => pack 0x57#7 Reg.Z rs1 rs2 imm16
  | .jal rd imm16 => pack 0x58#7 rd Reg.Z Reg.Z imm16
  | .jalr rd rs1 imm16 => pack 0x59#7 rd rs1 Reg.Z imm16
  | .beq rs1 rs2 imm16 => pack 0x5a#7 Reg.Z rs1 rs2 imm16
  | .bne rs1 rs2 imm16 => pack 0x5b#7 Reg.Z rs1 rs2 imm16
  | .blt rs1 rs2 imm16 => pack 0x5c#7 Reg.Z rs1 rs2 imm16
  | .bltu rs1 rs2 imm16 => pack 0x5d#7 Reg.Z rs1 rs2 imm16
  | .bge rs1 rs2 imm16 => pack 0x5e#7 Reg.Z rs1 rs2 imm16
  | .bgeu rs1 rs2 imm16 => pack 0x5f#7 Reg.Z rs1 rs2 imm16
  | .ecall rd rs1 rs2 imm16 => pack 0x7f#7 rd rs1 rs2 imm16

/-- The four bytes of an instruction as they lie in memory (R44, R71). -/
def encodeBytes (i : Instr) : List Byte := bytesOfWord (encode i)

end Sys2Proof
end

