-- ==== Sys2Proof/Machine/State.lean ====
section
/-! DEFINITION. The machine's state (10_state.md R20 to R33), the exceptions (60_exceptions.md R222), and why a step
can stop. -/

namespace Sys2Proof.Machine

/-- The assigned exception codes, 0x01 to 0x0f in this order (R222). -/
inductive Exc where
  /-- Reserved for a triple fault; nothing raises it (R223). -/
  | triple
  /-- Reserved for a double fault; nothing raises it (R224). -/
  | double
  /-- Unrecognized or invalid instruction (R225). -/
  | instr
  /-- pc outside the text segment (R226). -/
  | pcexec
  /-- Misaligned load address (R227). -/
  | lalign
  /-- Misaligned store address (R228). -/
  | salign
  /-- pc not a multiple of 4 (R229). -/
  | pcalign
  /-- Load address outside memory (R230). -/
  | lbounds
  /-- Store address outside memory (R231). -/
  | sbounds
  /-- pc outside memory (R232). -/
  | pcbounds
  /-- Store to a read-only address (R233). -/
  | sro
  /-- Reserved for arithmetic overflow; nothing raises it (R234). -/
  | ovf
  /-- Reserved for a division by zero; nothing raises it (R235). -/
  | divz
  /-- Unknown or unsupported extension id (R236). -/
  | extmiss
  /-- Error signalled by the called extension (R237). -/
  | exterr
  deriving DecidableEq, Repr

/-- Why the machine makes no step. -/
inductive Fault where
  /-- Raised by `step` when an earlier exception, of this code, has halted the machine: no step is defined (R241, R254).
  Safe: the spec defines none. -/
  | halted (code : BitVec 7)
  deriving DecidableEq, Repr

/-- What the model does not run. -/
inductive Refusal where
  /-- For an arm of `exec` that gives its instruction no meaning: no arm does. Safe: nothing is claimed of it. -/
  | notModelled (mnemonic : String)
  /-- Raised by `step` when the launch configuration breaks a constraint of R263: it is no Capsule machine, and
  93_implementation_defined.md U18 says to refuse it. Safe: nothing is claimed of it. -/
  | notACapsuleMachine
  deriving DecidableEq, Repr

/-- The seven general registers (R22, R23). Z has no storage: it is hard-wired (R21). -/
structure RegFile where
  A : Word
  B : Word
  C : Word
  R : Word
  S : Word
  X : Word
  Y : Word
  deriving DecidableEq, Repr

/-- The bytes of memory that differ from what an unlisted address reads as, addresses strictly rising
(`Memory.wf`). -/
abbrev Memory := List Host.Cell

/-- The whole state (table of 10_state.md), and the two fields of the model's own: `launch` and `draws`. -/
structure State where
  /-- x[1] to x[7] (R20 to R23). -/
  regs : RegFile
  /-- The program counter (R24). -/
  pc : Word
  /-- The exception status: 0x00 while the machine runs (R28). -/
  exc : BitVec 7
  /-- The program's memory (R31). -/
  mem : Memory
  /-- The launch parameters: no step changes them (00_scope.md R8; log 1). -/
  launch : Launch
  /-- How many extension handlers have answered: the index of the next draw of `Config.extAnswer` (log 15). -/
  draws : Nat
  deriving DecidableEq, Repr

/-- The state in which a program starts (R33, 70_reset_and_hazards.md R260): the loaded image `mem` (`INIT_MEM`), the pc
`entry` (`ENTRY_PC`), the registers `regs` (`INIT_REGS`), and no exception. -/
def State.start (launch : Launch) (mem : Memory) (entry : Word) (regs : RegFile) : State :=
  { regs := regs, pc := entry, exc := 0, mem := mem, launch := launch, draws := 0 }

/-- The launch parameters with nothing loaded: all 2^31 bytes of memory exist and the text segment is empty.
DESIGN CHOICE, unsafe (log 2, log 24); `CHECK_EXT_YES` and `CHECK_EXT_NO` are the spec's (R8). -/
def State.resetLaunch : Launch :=
  { memLen := 0x80000000, textStart := 0, textEnd := 0, readOnlyRanges := [], extensions := [],
    checkExtYes := 1, checkExtNo := 0 }

/-- The machine right after reset. `exc` is 0x00 (R33). The spec gives no value for the rest: DESIGN CHOICE, unsafe, of pc
(log 3), registers (log 4) and memory (log 5). -/
def State.reset : State :=
  State.start State.resetLaunch [] 0 { A := 0, B := 0, C := 0, R := 0, S := 0, X := 0, Y := 0 }

end Sys2Proof.Machine
end

