-- ==== Sys2Proof/Machine/Operands.lean ====
section
/-! DEFINITION. The operand forms: how an instruction uses its immediate, and the widths of memory operands
(30_encoding.md R73, R74; 20_memory.md R48). -/

namespace Sys2Proof.Machine

/-- `i32 = sext_16(imm16)` (R73). -/
def imm32 (imm16 : BitVec 16) : Word := imm16.signExtend 32

/-- `i32 << 16`, the operand of lui and auipc (R74, R160). -/
def upperImm (imm16 : BitVec 16) : Word := imm32 imm16 <<< 16

/-- `v[4:0]`, a shift amount of 0 to 31 (R74, R154). -/
def shiftAmount (v : Word) : Nat := v.toNat % 32

/-- `sext_8` of the low byte (R11). -/
def sext8 (v : Word) : Word := (v.setWidth 8).signExtend 32

/-- `zext_8` of the low byte (R11). -/
def zext8 (v : Word) : Word := (v.setWidth 8).setWidth 32

/-- `sext_16` of the low half word (R11). -/
def sext16 (v : Word) : Word := (v.setWidth 16).signExtend 32

/-- `zext_16` of the low half word (R11). -/
def zext16 (v : Word) : Word := (v.setWidth 16).setWidth 32

/-- The widths of a memory access (R53). -/
inductive Width where
  | byte | half | word
  deriving DecidableEq, Repr

/-- The number of bytes of an access (R48, R53). -/
def widthBytes : Width → Nat
  | .byte => 1
  | .half => 2
  | .word => 4

end Sys2Proof.Machine
end

