-- ==== Sys2Proof/Machine/Ops.lean ====
section
/-! DEFINITION. The shared operations: registers, memory, the checked accesses, raising an exception, and how an
instruction ends. -/

namespace Sys2Proof.Machine

/-! Registers (10_state.md R20, R21). -/

/-- `x[r]`: Z reads 0 always (R21). -/
def RegFile.get (f : RegFile) : Reg → Word
  | .Z => 0
  | .A => f.A
  | .B => f.B
  | .C => f.C
  | .R => f.R
  | .S => f.S
  | .X => f.X
  | .Y => f.Y

/-- `x[r] <- v`: a write to Z is discarded (R21). -/
def RegFile.set (f : RegFile) (r : Reg) (v : Word) : RegFile :=
  match r with
  | .Z => f
  | .A => { f with A := v }
  | .B => { f with B := v }
  | .C => { f with C := v }
  | .R => { f with R := v }
  | .S => { f with S := v }
  | .X => { f with X := v }
  | .Y => { f with Y := v }

/-- `x[r]` in a state. -/
def State.getReg (s : State) (r : Reg) : Word := s.regs.get r

/-- `x[r] <- v` in a state. -/
def State.setReg (s : State) (r : Reg) (v : Word) : State := { s with regs := s.regs.set r v }

/-! Memory (20_memory.md R40 to R47). -/

/-- What an unlisted address reads as: 0x00, "the all-zero word 0x00000000 that fills untouched memory" (30_encoding.md R77).
DESIGN CHOICE, unsafe (log 5). -/
def Memory.blank : Byte := 0

/-- The byte at an address. -/
def Memory.read : Memory → Nat → Byte
  | [], _ => Memory.blank
  | (b, v) :: m, a => if a = b then v else Memory.read m a

/-- Puts a cell before the first one with a higher address. -/
def Memory.insertCell (a : Nat) (v : Byte) : Memory → Memory
  | [] => [(a, v)]
  | (b, u) :: m => if a < b then (a, v) :: (b, u) :: m else (b, u) :: Memory.insertCell a v m

/-- Sets one byte. A byte that reads as an unlisted one is not listed. -/
def Memory.write (m : Memory) (a : Nat) (v : Byte) : Memory :=
  let others := m.filter fun c => c.1 != a
  if v = Memory.blank then others else Memory.insertCell a v others

/-- The one canonical form: addresses strictly rising, no byte listed that reads as an unlisted one. -/
def Memory.wf : Memory → Bool
  | [] => true
  | [(_, v)] => v != Memory.blank
  | (a, v) :: (b, u) :: m => decide (a < b) && v != Memory.blank && Memory.wf ((b, u) :: m)

/-- Every listed address is below `len`: the memory holds `MEMLEN` bytes (R31). -/
def Memory.within (m : Memory) (len : Nat) : Bool := m.all fun c => c.1 < len

/-- `MemRead(a, n)`: the bytes at `a` to `a + n - 1`, the lowest address least significant, widened with zeros (R45; byte
order: log 9). -/
def memRead (m : Memory) (a : Nat) : Nat → Word
  | 0 => 0
  | n + 1 => memRead m (a + 1) n <<< 8 ||| (m.read a).setWidth 32

/-- `MemWrite(a, n, v)`: byte `k` of `v` to address `a + k` (R46; byte order: log 9). -/
def memWrite (m : Memory) (a : Nat) : Nat → Word → Memory
  | 0, _ => m
  | n + 1, v => memWrite (m.write a (v.setWidth 8)) (a + 1) n (v >>> 8)

/-! The launch parameters (00_scope.md R8; 20_memory.md R42). -/

/-- `Exec(a)`: the text segment (R42). -/
def isExec (l : Launch) (a : Nat) : Bool := l.textStart ≤ a && a < l.textEnd

/-- `ReadOnly(a)`: the text segment, rodata, and wherever else the loader says (R42; log 11). -/
def isReadOnly (l : Launch) (a : Nat) : Bool :=
  isExec l a || l.readOnlyRanges.any fun r => r.1 ≤ a && a < r.2

/-- The id of meta.check_ext, which every implementation provides (46_system.md R212). -/
def metaCheckExt : Word := 0x00000003

/-- `EXT(id)` is defined (R211, R212). -/
def extSupported (l : Launch) (id : Word) : Bool := id == metaCheckExt || l.extensions.contains id

/-- `InBounds(addr, n)`: no negative address, and every byte of the access below `MEMLEN` (R41; log 10). -/
def inBounds (l : Launch) (addr : Word) (n : Nat) : Bool := 0 ≤ addr.toInt && addr.toNat + n ≤ l.memLen

/-- `Aligned(addr, n)` (R48). -/
def isAligned (addr : Word) (n : Nat) : Bool := addr.toNat % n == 0

/-- `ReadOnly` holds for some byte of an access (R50; log 11). -/
def anyReadOnly (l : Launch) (a n : Nat) : Bool := (List.range n).any fun k => isReadOnly l (a + k)

/-! The checked accesses. The order of the checks is the spec's choice (D11, D12; log 12). -/

/-- `Load(addr, n)` (R49). -/
def load (s : State) (addr : Word) (n : Nat) : Except Exc Word :=
  if !inBounds s.launch addr n then .error .lbounds
  else if !isAligned addr n then .error .lalign
  else .ok (memRead s.mem addr.toNat n)

/-- `Store(addr, n, v)` (R50). -/
def store (s : State) (addr : Word) (n : Nat) (v : Word) : Except Exc State :=
  if !inBounds s.launch addr n then .error .sbounds
  else if !isAligned addr n then .error .salign
  else if anyReadOnly s.launch addr.toNat n then .error .sro
  else .ok { s with mem := memWrite s.mem addr.toNat n v }

/-- `Fetch(pc)` (R51). -/
def fetch (s : State) : Except Exc Word :=
  if !inBounds s.launch s.pc 4 then .error .pcbounds
  else if !isAligned s.pc 4 then .error .pcalign
  else if !(isExec s.launch s.pc.toNat && isExec s.launch (s.pc.toNat + 3)) then .error .pcexec
  else .ok (memRead s.mem s.pc.toNat 4)

/-- A load's address is `x[rs1] + i32`, a store's `x[rs2] + i32`, modulo 2^32 (R52; log 8). -/
def effAddr (s : State) (base : Reg) (imm16 : BitVec 16) : Word := s.getReg base + imm32 imm16

/-! Taking an exception (60_exceptions.md R240, R243, R245). There is no return from one (R246). -/

/-- The 7-bit code of an exception (R222). -/
def Exc.code : Exc → BitVec 7
  | .triple => 0x01
  | .double => 0x02
  | .instr => 0x03
  | .pcexec => 0x04
  | .lalign => 0x05
  | .salign => 0x06
  | .pcalign => 0x07
  | .lbounds => 0x08
  | .sbounds => 0x09
  | .pcbounds => 0x0a
  | .sro => 0x0b
  | .ovf => 0x0c
  | .divz => 0x0d
  | .extmiss => 0x0e
  | .exterr => 0x0f

/-- `raise`: `exc` becomes the code, and nothing else changes: not `rd`, not memory, not the pc (R240; log 7, log 16). -/
def raise (e : Exc) (s : State) : Host.Outcome State Fault Refusal := .next { s with exc := e.code }

/-! How an instruction ends. -/

/-- The address of the subsequent instruction, `pc + 4` modulo 2^32 (10_state.md R25; log 8). -/
def nextPc (s : State) : Word := s.pc + 4

/-- The target of jal and of a taken branch, `pc + i32` modulo 2^32 (45_control.md R190; log 8). -/
def pcTarget (s : State) (imm16 : BitVec 16) : Word := s.pc + imm32 imm16

/-- `pc <- t`, and the instruction ends. -/
def goTo (t : Word) (s : State) : Host.Outcome State Fault Refusal := .next { s with pc := t }

/-- `pc <- pc + 4`, and the instruction ends (R25). -/
def advance (s : State) : Host.Outcome State Fault Refusal := goTo (nextPc s) s

/-- `x[rd] <- v; pc <- pc + 4`. -/
def writeAndAdvance (rd : Reg) (v : Word) (s : State) : Host.Outcome State Fault Refusal := advance (s.setReg rd v)

/-- `x[rd] <- pc + 4; pc <- t` (R191, R192): `t` is computed before `rd` is written. -/
def linkAndGoTo (rd : Reg) (t : Word) (s : State) : Host.Outcome State Fault Refusal :=
  goTo t (s.setReg rd (nextPc s))

/-- A branch: to `pc + i32` if `c` holds, else to `pc + 4` (R193). -/
def branchIf (c : Bool) (imm16 : BitVec 16) (s : State) : Host.Outcome State Fault Refusal :=
  if c then goTo (pcTarget s imm16) s else advance s

/-- A load: the checked read, widened by `widen`, to `rd` (44_load_store.md R170). -/
def loadTo (rd base : Reg) (imm16 : BitVec 16) (w : Width) (widen : Word → Word) (s : State) :
    Host.Outcome State Fault Refusal :=
  match load s (effAddr s base imm16) (widthBytes w) with
  | .error e => raise e s
  | .ok v => writeAndAdvance rd (widen v) s

/-- A store: the checked write of the low bytes of `x[value]` (R171). -/
def storeFrom (value base : Reg) (imm16 : BitVec 16) (w : Width) (s : State) : Host.Outcome State Fault Refusal :=
  match store s (effAddr s base imm16) (widthBytes w) (s.getReg value) with
  | .error e => raise e s
  | .ok s' => advance s'

/-! Extension calls (46_system.md R211, R212). -/

/-- The memory an extension leaves: its writes in order, but for those outside memory or to a `ReadOnly` address
(R211: it agrees with the old on every `ReadOnly` address; log 15). -/
def extWrites (l : Launch) : List Host.Cell → Memory → Memory
  | [], m => m
  | (a, v) :: ws, m => extWrites l ws (if a < l.memLen && !isReadOnly l a then m.write a v else m)

/-- The answer of meta.check_ext: whether `EXT` is defined at the id asked about (R212; log 14). -/
def checkExtAnswer (l : Launch) (id : Word) : Word := if extSupported l id then l.checkExtYes else l.checkExtNo

/-- A call of an extension other than meta.check_ext: its handler's answer is a free value (R211; log 15). -/
def callHandler (rd : Reg) (id input : Word) (s : State) : Host.Outcome State Fault Refusal :=
  match Config.extAnswer s.launch s.draws id input s.mem with
  | .err => raise .exterr s
  | .ok v ws => writeAndAdvance rd v { s with mem := extWrites s.launch ws s.mem, draws := s.draws + 1 }

/-- `ecall` (R211): extmiss for an unsupported id, else the extension's answer. -/
def callExtension (rd : Reg) (id input : Word) (s : State) : Host.Outcome State Fault Refusal :=
  if !extSupported s.launch id then raise .extmiss s
  else if id == metaCheckExt then writeAndAdvance rd (checkExtAnswer s.launch input) s
  else callHandler rd id input s

end Sys2Proof.Machine
end

