-- ==== Sys2Proof/Machine/BitManip.lean ====
section
/-! DEFINITION. Byte reversal and bit counting, opcodes 0x18 to 0x1c (42_bitmanip.md). -/

namespace Sys2Proof.Machine

/-- `v[7:0] ++ v[15:8] ++ v[23:16] ++ v[31:24]` (R141; log 25). -/
def reverseBytes (v : Word) : Word :=
  v.extractLsb' 0 8 ++ v.extractLsb' 8 8 ++ v.extractLsb' 16 8 ++ v.extractLsb' 24 8

/-- `v[15:0] ++ v[31:16]` (R142). -/
def reverseHalves (v : Word) : Word := v.extractLsb' 0 16 ++ v.extractLsb' 16 16

/-- The zero bits of `v` from bit `n - 1` going down, up to the first one bit (R143). -/
def leadingZeros (v : Word) : Nat → Nat
  | 0 => 0
  | n + 1 => if v.getLsbD n then 0 else leadingZeros v n + 1

/-- The zero bits of `v` among its top `n` bits going up, up to the first one bit (R144). -/
def trailingZeros (v : Word) : Nat → Nat
  | 0 => 0
  | n + 1 => if v.getLsbD (32 - (n + 1)) then 0 else trailingZeros v n + 1

/-- The one bits of `v` among bits `n - 1` to 0 (R145). -/
def setBits (v : Word) : Nat → Nat
  | 0 => 0
  | n + 1 => setBits v n + (v.getLsbD n).toNat

/-- revb (R141): the four bytes in reverse order. -/
def execRevb (rd rs1 : Reg) (s : State) : Host.Outcome State Fault Refusal :=
  writeAndAdvance rd (reverseBytes (s.getReg rs1)) s

/-- revh (R142): the two half words in reverse order. -/
def execRevh (rd rs1 : Reg) (s : State) : Host.Outcome State Fault Refusal :=
  writeAndAdvance rd (reverseHalves (s.getReg rs1)) s

/-- clz (R143): the number of leading zeros, 32 for 0 (log 20). -/
def execClz (rd rs1 : Reg) (s : State) : Host.Outcome State Fault Refusal :=
  writeAndAdvance rd (BitVec.ofNat 32 (leadingZeros (s.getReg rs1) 32)) s

/-- ctz (R144): the number of trailing zeros, 32 for 0 (log 20). -/
def execCtz (rd rs1 : Reg) (s : State) : Host.Outcome State Fault Refusal :=
  writeAndAdvance rd (BitVec.ofNat 32 (trailingZeros (s.getReg rs1) 32)) s

/-- pcnt (R145): the number of set bits. -/
def execPcnt (rd rs1 : Reg) (s : State) : Host.Outcome State Fault Refusal :=
  writeAndAdvance rd (BitVec.ofNat 32 (setBits (s.getReg rs1) 32)) s

end Sys2Proof.Machine
end

