-- ==== Sys2Proof/Machine/Flags.lean ====
section
/-! DEFINITION. The conditions. The machine has no status flags (10_state.md R27): a comparison is delivered as 0 or 1 in
`rd` or as a branch decision. -/

namespace Sys2Proof.Machine

/-- `<s`: the signed readings compare (00_scope.md R10). -/
def ltSigned (a b : Word) : Bool := a.toInt < b.toInt

/-- `<u`: the unsigned readings compare (R10). -/
def ltUnsigned (a b : Word) : Bool := a.toNat < b.toNat

/-- `>=s` (R10). -/
def geSigned (a b : Word) : Bool := b.toInt ≤ a.toInt

/-- `>=u` (R10). -/
def geUnsigned (a b : Word) : Bool := b.toNat ≤ a.toNat

/-- What slt, sltu, slti and sltiu write: 0x00000001 or 0x00000000 (R109). -/
def truthWord (c : Bool) : Word := if c then 1 else 0

end Sys2Proof.Machine
end

