-- ==== Sys2Proof/Machine/Control.lean ====
section
/-! DEFINITION. Jumps and branches, opcodes 0x58 to 0x5f (45_control.md). The transfer always completes; a bad target is found by the next
fetch (R190; log 16). -/

namespace Sys2Proof.Machine

/-- jal (R191): links and goes to `pc + i32`. -/
def execJal (rd : Reg) (imm16 : BitVec 16) (s : State) : Host.Outcome State Fault Refusal :=
  linkAndGoTo rd (pcTarget s imm16) s

/-- jalr (R192): links and goes to `x[rs1] + i32`, with x[rs1] as it was on entry; no bit is cleared (90_conflicts.md C6). -/
def execJalr (rd rs1 : Reg) (imm16 : BitVec 16) (s : State) : Host.Outcome State Fault Refusal :=
  linkAndGoTo rd (s.getReg rs1 + imm32 imm16) s

/-- beq (R193): branches if equal. -/
def execBeq (rs1 rs2 : Reg) (imm16 : BitVec 16) (s : State) : Host.Outcome State Fault Refusal :=
  branchIf (s.getReg rs1 == s.getReg rs2) imm16 s

/-- bne (R194): branches if not equal. -/
def execBne (rs1 rs2 : Reg) (imm16 : BitVec 16) (s : State) : Host.Outcome State Fault Refusal :=
  branchIf (s.getReg rs1 != s.getReg rs2) imm16 s

/-- blt (R195): branches if `x[rs1] <s x[rs2]`. -/
def execBlt (rs1 rs2 : Reg) (imm16 : BitVec 16) (s : State) : Host.Outcome State Fault Refusal :=
  branchIf (ltSigned (s.getReg rs1) (s.getReg rs2)) imm16 s

/-- bltu (R196): branches if `x[rs1] <u x[rs2]`. -/
def execBltu (rs1 rs2 : Reg) (imm16 : BitVec 16) (s : State) : Host.Outcome State Fault Refusal :=
  branchIf (ltUnsigned (s.getReg rs1) (s.getReg rs2)) imm16 s

/-- bge (R197): branches if `x[rs1] >=s x[rs2]`. -/
def execBge (rs1 rs2 : Reg) (imm16 : BitVec 16) (s : State) : Host.Outcome State Fault Refusal :=
  branchIf (geSigned (s.getReg rs1) (s.getReg rs2)) imm16 s

/-- bgeu (R198): branches if `x[rs1] >=u x[rs2]` (90_conflicts.md C7). -/
def execBgeu (rs1 rs2 : Reg) (imm16 : BitVec 16) (s : State) : Host.Outcome State Fault Refusal :=
  branchIf (geUnsigned (s.getReg rs1) (s.getReg rs2)) imm16 s

end Sys2Proof.Machine
end

