-- ==== Sys2Proof/Machine/ImmediateAlu.lean ====
section
/-! DEFINITION. Immediate logic, shifts, add, compare immediate and upper immediates, opcodes 0x44 to 0x4f (43_immediate_alu.md). -/

namespace Sys2Proof.Machine

/-- andi (R151): `x[rd] <- x[rs1] & i32` (90_conflicts.md C2). -/
def execAndi (rd rs1 : Reg) (imm16 : BitVec 16) (s : State) : Host.Outcome State Fault Refusal :=
  writeAndAdvance rd (s.getReg rs1 &&& imm32 imm16) s

/-- ori (R152): `x[rd] <- x[rs1] | i32` (90_conflicts.md C2). -/
def execOri (rd rs1 : Reg) (imm16 : BitVec 16) (s : State) : Host.Outcome State Fault Refusal :=
  writeAndAdvance rd (s.getReg rs1 ||| imm32 imm16) s

/-- xori (R153): `x[rd] <- x[rs1] ^ i32` (90_conflicts.md C2). -/
def execXori (rd rs1 : Reg) (imm16 : BitVec 16) (s : State) : Host.Outcome State Fault Refusal :=
  writeAndAdvance rd (s.getReg rs1 ^^^ imm32 imm16) s

/-- sll (R154): left by the register's amount, then by the immediate's (90_conflicts.md C4). -/
def execSll (rd rs1 rs2 : Reg) (imm16 : BitVec 16) (s : State) : Host.Outcome State Fault Refusal :=
  writeAndAdvance rd (s.getReg rs1 <<< shiftAmount (s.getReg rs2) <<< shiftAmount (imm32 imm16)) s

/-- srl (R155): right with zeros by the register's amount, then by the immediate's (90_conflicts.md C4). -/
def execSrl (rd rs1 rs2 : Reg) (imm16 : BitVec 16) (s : State) : Host.Outcome State Fault Refusal :=
  writeAndAdvance rd (s.getReg rs1 >>> shiftAmount (s.getReg rs2) >>> shiftAmount (imm32 imm16)) s

/-- sra (R156): right with sign bits by the register's amount, then by the immediate's (90_conflicts.md C4). -/
def execSra (rd rs1 rs2 : Reg) (imm16 : BitVec 16) (s : State) : Host.Outcome State Fault Refusal :=
  writeAndAdvance rd (((s.getReg rs1).sshiftRight (shiftAmount (s.getReg rs2))).sshiftRight (shiftAmount (imm32 imm16))) s

/-- add (R157): `x[rd] <- x[rs1] + x[rs2] + i32`, modulo 2^32 (log 23); no ovf. -/
def execAdd (rd rs1 rs2 : Reg) (imm16 : BitVec 16) (s : State) : Host.Outcome State Fault Refusal :=
  writeAndAdvance rd (s.getReg rs1 + s.getReg rs2 + imm32 imm16) s

/-- slti (R158): 1 if `x[rs1] <s i32`, else 0. -/
def execSlti (rd rs1 : Reg) (imm16 : BitVec 16) (s : State) : Host.Outcome State Fault Refusal :=
  writeAndAdvance rd (truthWord (ltSigned (s.getReg rs1) (imm32 imm16))) s

/-- sltiu (R159): 1 if `x[rs1] <u i32`, else 0: the immediate is sign-extended first (90_conflicts.md C3, C10). -/
def execSltiu (rd rs1 : Reg) (imm16 : BitVec 16) (s : State) : Host.Outcome State Fault Refusal :=
  writeAndAdvance rd (truthWord (ltUnsigned (s.getReg rs1) (imm32 imm16))) s

/-- lui (R160): `x[rd] <- i32 << 16`. -/
def execLui (rd : Reg) (imm16 : BitVec 16) (s : State) : Host.Outcome State Fault Refusal :=
  writeAndAdvance rd (upperImm imm16) s

/-- auipc (R161): `x[rd] <- pc + (i32 << 16)`, with the pc of this instruction, modulo 2^32 (log 23). -/
def execAuipc (rd : Reg) (imm16 : BitVec 16) (s : State) : Host.Outcome State Fault Refusal :=
  writeAndAdvance rd (s.pc + upperImm imm16) s

end Sys2Proof.Machine
end

