-- ==== Sys2Proof/Machine/LoadStore.lean ====
section
/-! DEFINITION. Loads and stores, opcodes 0x50 to 0x57 (44_load_store.md). -/

namespace Sys2Proof.Machine

/-- lb (R172): a byte, sign-extended. -/
def execLb (rd rs1 : Reg) (imm16 : BitVec 16) (s : State) : Host.Outcome State Fault Refusal :=
  loadTo rd rs1 imm16 .byte sext8 s

/-- lbu (R173): a byte, zero-extended. -/
def execLbu (rd rs1 : Reg) (imm16 : BitVec 16) (s : State) : Host.Outcome State Fault Refusal :=
  loadTo rd rs1 imm16 .byte zext8 s

/-- lh (R174): a half word, sign-extended. -/
def execLh (rd rs1 : Reg) (imm16 : BitVec 16) (s : State) : Host.Outcome State Fault Refusal :=
  loadTo rd rs1 imm16 .half sext16 s

/-- lhu (R175): a half word, zero-extended. -/
def execLhu (rd rs1 : Reg) (imm16 : BitVec 16) (s : State) : Host.Outcome State Fault Refusal :=
  loadTo rd rs1 imm16 .half zext16 s

/-- lw (R176): a word. -/
def execLw (rd rs1 : Reg) (imm16 : BitVec 16) (s : State) : Host.Outcome State Fault Refusal :=
  loadTo rd rs1 imm16 .word id s

/-- sb (R177): the low byte of rs1 to `x[rs2] + i32`. -/
def execSb (rs1 rs2 : Reg) (imm16 : BitVec 16) (s : State) : Host.Outcome State Fault Refusal :=
  storeFrom rs1 rs2 imm16 .byte s

/-- sh (R178): the low half word of rs1 to `x[rs2] + i32`. -/
def execSh (rs1 rs2 : Reg) (imm16 : BitVec 16) (s : State) : Host.Outcome State Fault Refusal :=
  storeFrom rs1 rs2 imm16 .half s

/-- sw (R179): rs1 to `x[rs2] + i32`. -/
def execSw (rs1 rs2 : Reg) (imm16 : BitVec 16) (s : State) : Host.Outcome State Fault Refusal :=
  storeFrom rs1 rs2 imm16 .word s

end Sys2Proof.Machine
end

