-- ==== Sys2Proof/Machine/LogicCompare.lean ====
section
/-! DEFINITION. Register-register logic, subtract, minimum, maximum and compare, opcodes 0x04 to 0x0d (40_logic_compare.md). -/

namespace Sys2Proof.Machine

/-- and (R101): `x[rd] <- x[rs1] & x[rs2]`. -/
def execAnd (rd rs1 rs2 : Reg) (s : State) : Host.Outcome State Fault Refusal :=
  writeAndAdvance rd (s.getReg rs1 &&& s.getReg rs2) s

/-- or (R102): `x[rd] <- x[rs1] | x[rs2]`. -/
def execOr (rd rs1 rs2 : Reg) (s : State) : Host.Outcome State Fault Refusal :=
  writeAndAdvance rd (s.getReg rs1 ||| s.getReg rs2) s

/-- xor (R103): `x[rd] <- x[rs1] ^ x[rs2]`. -/
def execXor (rd rs1 rs2 : Reg) (s : State) : Host.Outcome State Fault Refusal :=
  writeAndAdvance rd (s.getReg rs1 ^^^ s.getReg rs2) s

/-- sub (R104): `x[rd] <- x[rs1] - x[rs2]`, modulo 2^32 (log 23); no ovf. -/
def execSub (rd rs1 rs2 : Reg) (s : State) : Host.Outcome State Fault Refusal :=
  writeAndAdvance rd (s.getReg rs1 - s.getReg rs2) s

/-- min (R105): the lesser, as signed integers. -/
def execMin (rd rs1 rs2 : Reg) (s : State) : Host.Outcome State Fault Refusal :=
  writeAndAdvance rd (if ltSigned (s.getReg rs1) (s.getReg rs2) then s.getReg rs1 else s.getReg rs2) s

/-- minu (R106): the lesser, as unsigned integers. -/
def execMinu (rd rs1 rs2 : Reg) (s : State) : Host.Outcome State Fault Refusal :=
  writeAndAdvance rd (if ltUnsigned (s.getReg rs1) (s.getReg rs2) then s.getReg rs1 else s.getReg rs2) s

/-- max (R107): the greater, as signed integers (90_conflicts.md C1). -/
def execMax (rd rs1 rs2 : Reg) (s : State) : Host.Outcome State Fault Refusal :=
  writeAndAdvance rd (if geSigned (s.getReg rs1) (s.getReg rs2) then s.getReg rs1 else s.getReg rs2) s

/-- maxu (R108): the greater, as unsigned integers (90_conflicts.md C1). -/
def execMaxu (rd rs1 rs2 : Reg) (s : State) : Host.Outcome State Fault Refusal :=
  writeAndAdvance rd (if geUnsigned (s.getReg rs1) (s.getReg rs2) then s.getReg rs1 else s.getReg rs2) s

/-- slt (R109): 1 if `x[rs1] <s x[rs2]`, else 0. -/
def execSlt (rd rs1 rs2 : Reg) (s : State) : Host.Outcome State Fault Refusal :=
  writeAndAdvance rd (truthWord (ltSigned (s.getReg rs1) (s.getReg rs2))) s

/-- sltu (R110): 1 if `x[rs1] <u x[rs2]`, else 0. -/
def execSltu (rd rs1 rs2 : Reg) (s : State) : Host.Outcome State Fault Refusal :=
  writeAndAdvance rd (truthWord (ltUnsigned (s.getReg rs1) (s.getReg rs2))) s

end Sys2Proof.Machine
end

