-- ==== Sys2Proof/Machine/MulDiv.lean ====
section
/-! DEFINITION. Multiply, divide and remainder, opcodes 0x10 to 0x17 (41_muldiv.md). None raises an exception (R120). -/

namespace Sys2Proof.Machine

/-! The results, from exact integers narrowed at the end (R120). -/

/-- The low 32 bits of the product (R121). -/
def mulLow (a b : Word) : Word := BitVec.ofNat 32 (a.toNat * b.toNat)

/-- `floor(P / 2^32) mod 2^32` of an exact product `P`: its bits 63 to 32 (R122). -/
def highWord (p : Int) : Word := BitVec.ofInt 32 (p / 0x100000000)

/-- The quotient rounded toward zero; 0 for the divisor 0, 0x80000000 for -2147483648 by -1 (R125; log 21). -/
def divSigned (a b : Word) : Word :=
  if b = 0 then 0
  else if a = 0x80000000 ∧ b = 0xffffffff then 0x80000000
  else BitVec.ofInt 32 (a.toInt.tdiv b.toInt)

/-- The quotient of the unsigned readings; 0 for the divisor 0 (R126). -/
def divUnsigned (a b : Word) : Word := if b = 0 then 0 else BitVec.ofNat 32 (a.toNat / b.toNat)

/-- Dividend less quotient times divisor; 0 for the divisor 0 (R127; log 21). -/
def remSigned (a b : Word) : Word :=
  if b = 0 then 0 else BitVec.ofInt 32 (a.toInt - a.toInt.tdiv b.toInt * b.toInt)

/-- The remainder of the unsigned readings; 0 for the divisor 0 (R128). -/
def remUnsigned (a b : Word) : Word := if b = 0 then 0 else BitVec.ofNat 32 (a.toNat % b.toNat)

/-- mul (R121): the low 32 bits of the product. -/
def execMul (rd rs1 rs2 : Reg) (s : State) : Host.Outcome State Fault Refusal :=
  writeAndAdvance rd (mulLow (s.getReg rs1) (s.getReg rs2)) s

/-- mulh (R122): the high 32 bits of the product of the signed readings. -/
def execMulh (rd rs1 rs2 : Reg) (s : State) : Host.Outcome State Fault Refusal :=
  writeAndAdvance rd (highWord ((s.getReg rs1).toInt * (s.getReg rs2).toInt)) s

/-- mulhu (R123): the high 32 bits of the product of the unsigned readings. -/
def execMulhu (rd rs1 rs2 : Reg) (s : State) : Host.Outcome State Fault Refusal :=
  writeAndAdvance rd (highWord (((s.getReg rs1).toNat * (s.getReg rs2).toNat : Nat) : Int)) s

/-- mulhsu (R124): the high 32 bits of the product, rs1 signed and rs2 unsigned. -/
def execMulhsu (rd rs1 rs2 : Reg) (s : State) : Host.Outcome State Fault Refusal :=
  writeAndAdvance rd (highWord ((s.getReg rs1).toInt * ((s.getReg rs2).toNat : Int))) s

/-- div (R125): the signed quotient. -/
def execDiv (rd rs1 rs2 : Reg) (s : State) : Host.Outcome State Fault Refusal :=
  writeAndAdvance rd (divSigned (s.getReg rs1) (s.getReg rs2)) s

/-- divu (R126): the unsigned quotient. -/
def execDivu (rd rs1 rs2 : Reg) (s : State) : Host.Outcome State Fault Refusal :=
  writeAndAdvance rd (divUnsigned (s.getReg rs1) (s.getReg rs2)) s

/-- rem (R127): the signed remainder. -/
def execRem (rd rs1 rs2 : Reg) (s : State) : Host.Outcome State Fault Refusal :=
  writeAndAdvance rd (remSigned (s.getReg rs1) (s.getReg rs2)) s

/-- remu (R128): the unsigned remainder. -/
def execRemu (rd rs1 rs2 : Reg) (s : State) : Host.Outcome State Fault Refusal :=
  writeAndAdvance rd (remUnsigned (s.getReg rs1) (s.getReg rs2)) s

end Sys2Proof.Machine
end

