-- ==== Sys2Proof/Machine/System.lean ====
section
/-! DEFINITION. Breakpoint, extension call and invalid instructions (46_system.md). -/

namespace Sys2Proof.Machine

/-- Opcode 0x00 and the unassigned opcodes (R213, R214): `raise instr`, whatever the word's other bits. -/
def execInvalid (s : State) : Host.Outcome State Fault Refusal :=
  raise .instr s

/-- ebreak (R210): a no-op: no debugger is attached (log 13). -/
def execEbreak (s : State) : Host.Outcome State Fault Refusal :=
  advance s

/-- ecall (R211): calls the extension `x[rs2] + i32`, modulo 2^32 (log 23), with the input `x[rs1]`. -/
def execEcall (rd rs1 rs2 : Reg) (imm16 : BitVec 16) (s : State) : Host.Outcome State Fault Refusal :=
  callExtension rd (s.getReg rs2 + imm32 imm16) (s.getReg rs1) s

end Sys2Proof.Machine
end

