-- ==== Sys2Proof/Machine/Dispatch.lean ====
section
/-! DEFINITION. Every instruction's meaning (30_encoding.md R75). -/

namespace Sys2Proof.Machine

/-- The meaning of each instruction, one arm per constructor. -/
def exec (i : Instr) (s : State) : Host.Outcome State Fault Refusal :=
    match i with
    | .invalid _ _ => Sys2Proof.Machine.execInvalid s
    | .and rd rs1 rs2 => Sys2Proof.Machine.execAnd rd rs1 rs2 s
    | .or rd rs1 rs2 => Sys2Proof.Machine.execOr rd rs1 rs2 s
    | .xor rd rs1 rs2 => Sys2Proof.Machine.execXor rd rs1 rs2 s
    | .sub rd rs1 rs2 => Sys2Proof.Machine.execSub rd rs1 rs2 s
    | .min rd rs1 rs2 => Sys2Proof.Machine.execMin rd rs1 rs2 s
    | .minu rd rs1 rs2 => Sys2Proof.Machine.execMinu rd rs1 rs2 s
    | .max rd rs1 rs2 => Sys2Proof.Machine.execMax rd rs1 rs2 s
    | .maxu rd rs1 rs2 => Sys2Proof.Machine.execMaxu rd rs1 rs2 s
    | .slt rd rs1 rs2 => Sys2Proof.Machine.execSlt rd rs1 rs2 s
    | .sltu rd rs1 rs2 => Sys2Proof.Machine.execSltu rd rs1 rs2 s
    | .mul rd rs1 rs2 => Sys2Proof.Machine.execMul rd rs1 rs2 s
    | .mulh rd rs1 rs2 => Sys2Proof.Machine.execMulh rd rs1 rs2 s
    | .mulhu rd rs1 rs2 => Sys2Proof.Machine.execMulhu rd rs1 rs2 s
    | .mulhsu rd rs1 rs2 => Sys2Proof.Machine.execMulhsu rd rs1 rs2 s
    | .div rd rs1 rs2 => Sys2Proof.Machine.execDiv rd rs1 rs2 s
    | .divu rd rs1 rs2 => Sys2Proof.Machine.execDivu rd rs1 rs2 s
    | .rem rd rs1 rs2 => Sys2Proof.Machine.execRem rd rs1 rs2 s
    | .remu rd rs1 rs2 => Sys2Proof.Machine.execRemu rd rs1 rs2 s
    | .revb rd rs1 => Sys2Proof.Machine.execRevb rd rs1 s
    | .revh rd rs1 => Sys2Proof.Machine.execRevh rd rs1 s
    | .clz rd rs1 => Sys2Proof.Machine.execClz rd rs1 s
    | .ctz rd rs1 => Sys2Proof.Machine.execCtz rd rs1 s
    | .pcnt rd rs1 => Sys2Proof.Machine.execPcnt rd rs1 s
    | .ebreak => Sys2Proof.Machine.execEbreak s
    | .andi rd rs1 imm16 => Sys2Proof.Machine.execAndi rd rs1 imm16 s
    | .ori rd rs1 imm16 => Sys2Proof.Machine.execOri rd rs1 imm16 s
    | .xori rd rs1 imm16 => Sys2Proof.Machine.execXori rd rs1 imm16 s
    | .sll rd rs1 rs2 imm16 => Sys2Proof.Machine.execSll rd rs1 rs2 imm16 s
    | .srl rd rs1 rs2 imm16 => Sys2Proof.Machine.execSrl rd rs1 rs2 imm16 s
    | .sra rd rs1 rs2 imm16 => Sys2Proof.Machine.execSra rd rs1 rs2 imm16 s
    | .add rd rs1 rs2 imm16 => Sys2Proof.Machine.execAdd rd rs1 rs2 imm16 s
    | .slti rd rs1 imm16 => Sys2Proof.Machine.execSlti rd rs1 imm16 s
    | .sltiu rd rs1 imm16 => Sys2Proof.Machine.execSltiu rd rs1 imm16 s
    | .lui rd imm16 => Sys2Proof.Machine.execLui rd imm16 s
    | .auipc rd imm16 => Sys2Proof.Machine.execAuipc rd imm16 s
    | .lb rd rs1 imm16 => Sys2Proof.Machine.execLb rd rs1 imm16 s
    | .lbu rd rs1 imm16 => Sys2Proof.Machine.execLbu rd rs1 imm16 s
    | .lh rd rs1 imm16 => Sys2Proof.Machine.execLh rd rs1 imm16 s
    | .lhu rd rs1 imm16 => Sys2Proof.Machine.execLhu rd rs1 imm16 s
    | .lw rd rs1 imm16 => Sys2Proof.Machine.execLw rd rs1 imm16 s
    | .sb rs1 rs2 imm16 => Sys2Proof.Machine.execSb rs1 rs2 imm16 s
    | .sh rs1 rs2 imm16 => Sys2Proof.Machine.execSh rs1 rs2 imm16 s
    | .sw rs1 rs2 imm16 => Sys2Proof.Machine.execSw rs1 rs2 imm16 s
    | .jal rd imm16 => Sys2Proof.Machine.execJal rd imm16 s
    | .jalr rd rs1 imm16 => Sys2Proof.Machine.execJalr rd rs1 imm16 s
    | .beq rs1 rs2 imm16 => Sys2Proof.Machine.execBeq rs1 rs2 imm16 s
    | .bne rs1 rs2 imm16 => Sys2Proof.Machine.execBne rs1 rs2 imm16 s
    | .blt rs1 rs2 imm16 => Sys2Proof.Machine.execBlt rs1 rs2 imm16 s
    | .bltu rs1 rs2 imm16 => Sys2Proof.Machine.execBltu rs1 rs2 imm16 s
    | .bge rs1 rs2 imm16 => Sys2Proof.Machine.execBge rs1 rs2 imm16 s
    | .bgeu rs1 rs2 imm16 => Sys2Proof.Machine.execBgeu rs1 rs2 imm16 s
    | .ecall rd rs1 rs2 imm16 => Sys2Proof.Machine.execEcall rd rs1 rs2 imm16 s

end Sys2Proof.Machine
end

