-- ==== Sys2Proof/Machine/Step.lean ====
section
/-! DEFINITION. The execution cycle (60_exceptions.md R241), and placing an instruction where the next fetch reads. -/

namespace Sys2Proof.Machine

/-- `Step` (R241): none for a halted machine; else fetch, decode, execute. A configuration that is no Capsule machine is
refused (93_implementation_defined.md U18; log 22). -/
def step (s : State) : Host.Outcome State Fault Refusal :=
  if s.exc ≠ 0 then .fault (.halted s.exc)
  else if !s.launch.wellFormed then .refused .notACapsuleMachine
  else
    match fetch s with
    | .error e => raise e s
    | .ok w => exec (decode w) s

/-- The launch parameters with the word at `pc` fetchable: those of the state if it is, else with a text segment of that one
word, and with `MEMLEN` raised to hold it (log 6). -/
def State.launchForFetch (s : State) : Launch :=
  let a := s.pc.toNat
  if isExec s.launch a && isExec s.launch (a + 3) && a + 4 ≤ s.launch.memLen then s.launch
  else { s.launch with memLen := Nat.max s.launch.memLen (a + 4), textStart := a, textEnd := a + 4 }

/-- The state with the instruction word of bits `w` loaded at the pc, so that the next step fetches and runs it, for a pc that is a
multiple of 4 below 2^31: the load of a program that 60_exceptions.md R255 gives the host (log 6). -/
def State.withFetchWord (s : State) (nbits w : Nat) : State :=
  { s with
    exc := 0
    mem := memWrite s.mem s.pc.toNat 4 (BitVec.ofNat 32 (w % 2 ^ nbits))
    launch := s.launchForFetch }

end Sys2Proof.Machine
end

