-- ==== Sys2Proof/Safety.lean ====
section
/-! DEFINITION. What claims speak of: the state invariant, the registers an instruction names, and what it means that
an instruction completes with a result and changes nothing else. -/

namespace Sys2Proof

/-- The register an instruction writes: the column `rd` of 30_encoding.md R75. -/
def Instr.dest : Instr → Option Reg
  | .invalid _ _ | .ebreak | .sb _ _ _ | .sh _ _ _ | .sw _ _ _ | .beq _ _ _ | .bne _ _ _ | .blt _ _ _
  | .bltu _ _ _ | .bge _ _ _ | .bgeu _ _ _ => none
  | .and rd _ _ | .or rd _ _ | .xor rd _ _ | .sub rd _ _ | .min rd _ _ | .minu rd _ _ | .max rd _ _
  | .maxu rd _ _ | .slt rd _ _ | .sltu rd _ _ | .mul rd _ _ | .mulh rd _ _ | .mulhu rd _ _ | .mulhsu rd _ _
  | .div rd _ _ | .divu rd _ _ | .rem rd _ _ | .remu rd _ _ | .revb rd _ | .revh rd _ | .clz rd _ | .ctz rd _
  | .pcnt rd _ | .andi rd _ _ | .ori rd _ _ | .xori rd _ _ | .sll rd _ _ _ | .srl rd _ _ _ | .sra rd _ _ _
  | .add rd _ _ _ | .slti rd _ _ | .sltiu rd _ _ | .lui rd _ | .auipc rd _ | .lb rd _ _ | .lbu rd _ _
  | .lh rd _ _ | .lhu rd _ _ | .lw rd _ _ | .jal rd _ | .jalr rd _ _ | .ecall rd _ _ _ => some rd

/-- The registers an instruction reads: the columns `rs1` and `rs2` of 30_encoding.md R75. -/
def Instr.sources : Instr → List Reg
  | .invalid _ _ | .ebreak | .lui _ _ | .auipc _ _ | .jal _ _ => []
  | .and _ rs1 rs2 | .or _ rs1 rs2 | .xor _ rs1 rs2 | .sub _ rs1 rs2 | .min _ rs1 rs2 | .minu _ rs1 rs2
  | .max _ rs1 rs2 | .maxu _ rs1 rs2 | .slt _ rs1 rs2 | .sltu _ rs1 rs2 | .mul _ rs1 rs2 | .mulh _ rs1 rs2
  | .mulhu _ rs1 rs2 | .mulhsu _ rs1 rs2 | .div _ rs1 rs2 | .divu _ rs1 rs2 | .rem _ rs1 rs2
  | .remu _ rs1 rs2 | .sll _ rs1 rs2 _ | .srl _ rs1 rs2 _ | .sra _ rs1 rs2 _ | .add _ rs1 rs2 _
  | .sb rs1 rs2 _ | .sh rs1 rs2 _ | .sw rs1 rs2 _ | .beq rs1 rs2 _ | .bne rs1 rs2 _ | .blt rs1 rs2 _
  | .bltu rs1 rs2 _ | .bge rs1 rs2 _ | .bgeu rs1 rs2 _ | .ecall _ rs1 rs2 _ => [rs1, rs2]
  | .revb _ rs1 | .revh _ rs1 | .clz _ rs1 | .ctz _ rs1 | .pcnt _ rs1 | .andi _ rs1 _ | .ori _ rs1 _
  | .xori _ rs1 _ | .slti _ rs1 _ | .sltiu _ rs1 _ | .lb _ rs1 _ | .lbu _ rs1 _ | .lh _ rs1 _ | .lhu _ rs1 _
  | .lw _ rs1 _ | .jalr _ rs1 _ => [rs1]

namespace Machine

/-- No exception, or one of the eleven that can occur (60_exceptions.md R221, R238). -/
def legalExc (c : BitVec 7) : Bool :=
  [0x00#7, 0x03#7, 0x04#7, 0x05#7, 0x06#7, 0x07#7, 0x08#7, 0x09#7, 0x0a#7, 0x0b#7, 0x0e#7, 0x0f#7].contains c

/-- The invariant of a Capsule machine: its memory is in canonical form and holds no byte at or above `MEMLEN` (R31), its
launch configuration is well formed (R263), and its exception status is one that can occur (R238). -/
def State.inv (s : State) : Bool :=
  s.mem.wf && s.mem.within s.launch.memLen && s.launch.wellFormed && legalExc s.exc

/-- `t` is `s` but for the pc and the register `rd`, which holds `v` unless it is Z. Z reads 0. -/
structure RegisterResult (s t : State) (rd : Reg) (v : Word) : Prop where
  dest : rd ≠ .Z → t.getReg rd = v
  zero : t.getReg .Z = 0
  registers : ∀ r, r ≠ rd → t.getReg r = s.getReg r
  memory : ∀ a, t.mem.read a = s.mem.read a
  exc : t.exc = s.exc
  launch : t.launch = s.launch
  draws : t.draws = s.draws

/-- The instruction `i`, whose opcode is `opcode`, completes in `s`: `v` goes to `rd`, the pc advances by 4, and nothing
else changes. -/
def Computes (opcode : BitVec 7) (i : Instr) (rd : Reg) (v : Word) (s : State) : Prop :=
  opcodeOf (encode i) = opcode ∧
    ∃ t, exec i s = .next t ∧ RegisterResult s t rd v ∧ t.pc = s.pc + 4

/-- `t` is `s` but for the pc and the `n` bytes at `p`, which hold the low bytes of `v`, the lowest first. -/
structure StoreResult (s t : State) (p n : Nat) (v : Word) : Prop where
  stored : ∀ k, k < n → t.mem.read (p + k) = v.extractLsb' (8 * k) 8
  memory : ∀ a, a < p ∨ p + n ≤ a → t.mem.read a = s.mem.read a
  registers : ∀ r, t.getReg r = s.getReg r
  exc : t.exc = s.exc
  launch : t.launch = s.launch
  draws : t.draws = s.draws

/-- The instruction `i`, whose opcode is `opcode`, completes in `s`: the low `n` bytes of `v` go to `p`, the pc advances
by 4, and nothing else changes. -/
def Stores (opcode : BitVec 7) (i : Instr) (p n : Nat) (v : Word) (s : State) : Prop :=
  opcodeOf (encode i) = opcode ∧
    ∃ t, exec i s = .next t ∧ StoreResult s t p n v ∧ t.pc = s.pc + 4

end Machine

end Sys2Proof
end

