-- ==== Sys2Proof/Certificates/Slice0/Obligations.lean ====
section
/-! DEFINITION. The statements for the provers. "log n" is notes/assumptions/n.md. -/

open Sys2Proof Sys2Proof.Machine

/-! ## Encoding (30_encoding.md) -/

/-- R22: the register names in order are the numbers 0 to 7, and each 3-bit field names one register. -/
def Obligations.RegisterNumbersAreInOrder : Prop :=
  [Reg.Z, .A, .B, .C, .R, .S, .X, .Y].map (fun r => r.bits.toNat) = [0, 1, 2, 3, 4, 5, 6, 7] ∧
    (∀ r : Reg, Reg.ofBits r.bits = r) ∧ ∀ b : BitVec 3, (Reg.ofBits b).bits = b

/-- R81: `Decode(Encode(...))` returns the same fields, for every well-formed instruction. -/
def Obligations.DecodeOfEncodeIsTheInstruction : Prop :=
  ∀ i : Instr, i.wellFormed = true → decode (encode i) = i

/-- R81, R79: decoding is total, gives a well-formed instruction of the word's opcode, and loses only what the canonical
word loses. That unused fields are ignored is the spec's decision D19 (log 18). -/
def Obligations.EveryWordDecodesToItsCanonicalForm : Prop :=
  ∀ w : Word, (decode w).wellFormed = true ∧ opcodeOf (encode (decode w)) = opcodeOf w ∧
    decode (encode (decode w)) = decode w

/-- R71, R75, R77, R78, R81: the opcode map, from the numeric form of a word. All four fields take any value: the ones an
instruction does not use are ignored by the spec's decision D19 (log 18). -/
def Obligations.OpcodeMapDecodesEveryWord : Prop :=
  ∀ (rd rs1 rs2 : Reg) (imm16 : BitVec 16),
    let w : Nat → Word := fun op => BitVec.ofNat 32
      (op + 128 * rd.bits.toNat + 1024 * rs1.bits.toNat + 8192 * rs2.bits.toNat + 65536 * imm16.toNat)
    (decode (w 0x04) = .and rd rs1 rs2 ∧ decode (w 0x05) = .or rd rs1 rs2 ∧
      decode (w 0x06) = .xor rd rs1 rs2 ∧ decode (w 0x07) = .sub rd rs1 rs2 ∧
      decode (w 0x08) = .min rd rs1 rs2 ∧ decode (w 0x09) = .minu rd rs1 rs2 ∧
      decode (w 0x0a) = .max rd rs1 rs2 ∧ decode (w 0x0b) = .maxu rd rs1 rs2 ∧
      decode (w 0x0c) = .slt rd rs1 rs2 ∧ decode (w 0x0d) = .sltu rd rs1 rs2) ∧
    (decode (w 0x10) = .mul rd rs1 rs2 ∧ decode (w 0x11) = .mulh rd rs1 rs2 ∧
      decode (w 0x12) = .mulhu rd rs1 rs2 ∧ decode (w 0x13) = .mulhsu rd rs1 rs2 ∧
      decode (w 0x14) = .div rd rs1 rs2 ∧ decode (w 0x15) = .divu rd rs1 rs2 ∧
      decode (w 0x16) = .rem rd rs1 rs2 ∧ decode (w 0x17) = .remu rd rs1 rs2) ∧
    (decode (w 0x18) = .revb rd rs1 ∧ decode (w 0x19) = .revh rd rs1 ∧ decode (w 0x1a) = .clz rd rs1 ∧
      decode (w 0x1b) = .ctz rd rs1 ∧ decode (w 0x1c) = .pcnt rd rs1 ∧ decode (w 0x3f) = .ebreak) ∧
    (decode (w 0x44) = .andi rd rs1 imm16 ∧ decode (w 0x45) = .ori rd rs1 imm16 ∧
      decode (w 0x46) = .xori rd rs1 imm16 ∧ decode (w 0x48) = .sll rd rs1 rs2 imm16 ∧
      decode (w 0x49) = .srl rd rs1 rs2 imm16 ∧ decode (w 0x4a) = .sra rd rs1 rs2 imm16 ∧
      decode (w 0x4b) = .add rd rs1 rs2 imm16 ∧ decode (w 0x4c) = .slti rd rs1 imm16 ∧
      decode (w 0x4d) = .sltiu rd rs1 imm16 ∧ decode (w 0x4e) = .lui rd imm16 ∧
      decode (w 0x4f) = .auipc rd imm16) ∧
    (decode (w 0x50) = .lb rd rs1 imm16 ∧ decode (w 0x51) = .lbu rd rs1 imm16 ∧
      decode (w 0x52) = .lh rd rs1 imm16 ∧ decode (w 0x53) = .lhu rd rs1 imm16 ∧
      decode (w 0x54) = .lw rd rs1 imm16 ∧ decode (w 0x55) = .sb rs1 rs2 imm16 ∧
      decode (w 0x56) = .sh rs1 rs2 imm16 ∧ decode (w 0x57) = .sw rs1 rs2 imm16) ∧
    (decode (w 0x58) = .jal rd imm16 ∧ decode (w 0x59) = .jalr rd rs1 imm16 ∧
      decode (w 0x5a) = .beq rs1 rs2 imm16 ∧ decode (w 0x5b) = .bne rs1 rs2 imm16 ∧
      decode (w 0x5c) = .blt rs1 rs2 imm16 ∧ decode (w 0x5d) = .bltu rs1 rs2 imm16 ∧
      decode (w 0x5e) = .bge rs1 rs2 imm16 ∧ decode (w 0x5f) = .bgeu rs1 rs2 imm16 ∧
      decode (w 0x7f) = .ecall rd rs1 rs2 imm16) ∧
    ∀ op ∈ [0x00, 0x01, 0x02, 0x03, 0x0e, 0x0f] ++ (List.range 34).map (0x1d + ·) ++
        [0x40, 0x41, 0x42, 0x43, 0x47] ++ (List.range 31).map (0x60 + ·),
      decode (w op) = .invalid (BitVec.ofNat 7 op) (imm16 ++ rs2.bits ++ rs1.bits ++ rd.bits)

/-- Words written out from the spec's encoding (R71) decode to the instructions they stand for: seven of 95_test_vectors.md
section 2.0 and the words of the examples of R125, R176 and R177. One of them, 0x0000e3bf, has non-zero unused fields, which are
ignored by the spec's decision D19 (log 18). -/
def Obligations.SpecWordsDecode : Prop :=
  decode 0x00004584 = .and .C .A .B ∧ decode 0x00004714 = .div .X .A .B ∧ decode 0x0000059b = .ctz .C .A ∧
    decode 0xffff45cb = .add .C .A .B 0xffff ∧ decode 0x00040bd4 = .lw .Y .B 4 ∧
    decode 0x00065c55 = .sb .Y .B 6 ∧ decode 0xfff8085b = .bne .B .Z 0xfff8 ∧
    decode 0x0003057f = .ecall .B .A .Z 3 ∧ decode 0x0000e3bf = .ebreak ∧ decode 0x00000047 = .invalid 0x47 0

/-- R73: the immediate is always sign-extended: the low half of i32 is the field, every higher bit is a copy of bit 31 of
the word, and the signed value is unchanged. -/
def Obligations.ImmediateIsSignExtended : Prop :=
  ∀ w : Word, (imm32 (imm16Of w)).extractLsb' 0 16 = w.extractLsb' 16 16 ∧
    (∀ k, 16 ≤ k → k < 32 → (imm32 (imm16Of w)).getLsbD k = w.getLsbD 31) ∧
    (imm32 (imm16Of w)).toInt = (imm16Of w).toInt

/-! ## Registers and memory (10_state.md, 20_memory.md) -/

/-- R21: Z always reads 0, a write to it is discarded, and a write to any other register is what a read of it finds and changes
no other register (R20). -/
def Obligations.RegistersHoldWhatIsWritten : Prop :=
  ∀ (s : State) (r q : Reg) (v : Word), s.getReg .Z = 0 ∧ s.setReg .Z v = s ∧
    (r ≠ .Z → (s.setReg r v).getReg r = v) ∧ (q ≠ r → (s.setReg r v).getReg q = s.getReg q)

/-- R46, R45: after `MemWrite(p, n, v)` the n bytes read back as the low 8n bits of v, each byte `p + k` is the slice
`v[8k+7:8k]`, and every other byte is unchanged. The byte order of data is the spec's decision D4 (log 9). -/
def Obligations.MemReadAfterMemWrite : Prop :=
  ∀ (m : Memory) (p : Nat) (w : Width) (v : Word),
    let n := widthBytes w
    let m' := memWrite m p n v
    (memRead m' p n).toNat = v.toNat % 2 ^ (8 * n) ∧
      (∀ k, k < n → m'.read (p + k) = v.extractLsb' (8 * k) 8) ∧
      ∀ a, a < p ∨ p + n ≤ a → m'.read a = m.read a

/-- R47: a narrow read inside a word just written sees the part of it the little-endian order gives (decision D4,
log 9). -/
def Obligations.NarrowReadsSeePartOfAWord : Prop :=
  ∀ (m : Memory) (p : Nat) (v : Word),
    let m' := memWrite m p 4 v
    (∀ k, k < 4 → memRead m' (p + k) 1 = (v >>> (8 * k)) &&& 0xff) ∧
      memRead m' p 2 = v &&& 0xffff ∧ memRead m' (p + 2) 2 = v >>> 16

/-- Log 5: the canonical form makes memories that read alike equal data. -/
def Obligations.CanonicalMemoriesThatReadAlikeAreEqual : Prop :=
  ∀ m m' : Memory, m.wf = true → m'.wf = true → (∀ a, m.read a = m'.read a) → m = m'

/-! ## The cycle, exceptions and the end of a run (60_exceptions.md) -/

/-- R222: the codes of the fifteen assigned exceptions. -/
def Obligations.ExceptionCodesOfTheTable : Prop :=
  [Exc.triple, .double, .instr, .pcexec, .lalign, .salign, .pcalign, .lbounds, .sbounds, .pcbounds, .sro, .ovf, .divz,
    .extmiss, .exterr].map (fun e => e.code.toNat) = (List.range 15).map (· + 1)

/-- R241, R51, R44: when the four bytes at an aligned pc inside the text segment decode to a well-formed instruction, the step is
that instruction, and nothing else. The cycle is the spec's decision D18 (log 17), its fetch checks D12 and D16 (log 12, log 16),
the one text range D6 (log 11). -/
def Obligations.StepRunsTheDecodedInstruction : Prop :=
  ∀ (s : State) (i : Instr), s.exc = 0 → s.launch.wellFormed = true →
    s.pc.toNat % 4 = 0 → s.launch.textStart ≤ s.pc.toNat → s.pc.toNat + 4 ≤ s.launch.textEnd →
    decodeBytes [s.mem.read s.pc.toNat, s.mem.read (s.pc.toNat + 1), s.mem.read (s.pc.toNat + 2),
      s.mem.read (s.pc.toNat + 3)] = .ok (i, []) →
    i.wellFormed = true → step s = exec i s

/-- R51: the fetch checks raise pcbounds, pcalign and pcexec, and change nothing but `exc`. Their order is the spec's decision D12
(log 12), and that they belong to the fetch is D16 (log 16). That all four bytes must be in bounds is D5 (log 10) and inside the
text segment D6 (log 11): both make the model raise where an implementation might not. -/
def Obligations.FetchChecksRaise : Prop :=
  ∀ s : State, s.exc = 0 → s.launch.wellFormed = true →
    (s.launch.memLen < s.pc.toNat + 4 → step s = .next { s with exc := 0x0a }) ∧
    (s.pc.toNat + 4 ≤ s.launch.memLen → s.pc.toNat % 4 ≠ 0 → step s = .next { s with exc := 0x07 }) ∧
    (s.pc.toNat + 4 ≤ s.launch.memLen → s.pc.toNat % 4 = 0 →
      (s.pc.toNat < s.launch.textStart ∨ s.launch.textEnd < s.pc.toNat + 4) →
      step s = .next { s with exc := 0x04 })

/-- R241, R253: a halted machine makes no step. How the model shows it is log 7 (the spec's decision D3). -/
def Obligations.HaltedMachineMakesNoStep : Prop :=
  ∀ s : State, s.exc ≠ 0 → step s = .fault (.halted s.exc)

/-- 93_implementation_defined.md U18: a configuration that breaks a loader constraint is refused (log 22). -/
def Obligations.IllFormedLaunchIsRefused : Prop :=
  ∀ s : State, s.exc = 0 →
    (0x80000000 < s.launch.memLen ∨ s.launch.textEnd < s.launch.textStart ∨ s.launch.memLen < s.launch.textEnd ∨
      s.launch.checkExtYes = s.launch.checkExtNo) →
    step s = .refused .notACapsuleMachine

/-- R266: `Step` is always defined while `exc = 0`. That a handler always answers is the spec's decision D15 (log 15), the cycle
D18 (log 17). The launch parameters do not change. -/
def Obligations.StepIsDefinedWhileRunning : Prop :=
  ∀ s : State, s.exc = 0 → s.launch.wellFormed = true → ∃ t, step s = .next t ∧ t.launch = s.launch

/-- R254, R240: a run goes on until an exception and then never again: after any number of steps the machine is running, or it has
just halted, or it stopped earlier with the code of its one exception. That a run ends so is the spec's decisions D3 and D22 (log
7), that a handler always answers D15 (log 15), the cycle D18 (log 17). -/
def Obligations.RunsEndOnlyByAnException : Prop :=
  ∀ (n : Nat) (s : State), s.exc = 0 → s.launch.wellFormed = true →
    (∃ t, Host.Core.run Sys2Proof.core n s = .next t ∧ t.exc = 0) ∨
    ∃ k t, k ≤ n ∧ Host.Core.run Sys2Proof.core k s = .next t ∧ t.exc ≠ 0 ∧
      ∀ j, Host.Core.run Sys2Proof.core (k + j + 1) s = .fault (.halted t.exc)

/-- R240, R243: a step that raises changes `exc` and nothing else, to the code of an exception that can occur (R222). The status
`exc` is the spec's decision D3 (log 7), the state at the halt D16 (log 16). -/
def Obligations.RaisingChangesNothingElse : Prop :=
  ∀ s t : State, step s = .next t → t.exc ≠ 0 → t = { s with exc := t.exc } ∧ legalExc t.exc = true

/-- R222, R242, the column "raised by": what each instruction may set `exc` to. What may set it first is the spec's decision D11
(log 12). That jumps and branches raise nothing themselves is D16 (log 16), that ebreak raises nothing D13 (log 13), that a
handler raises at most exterr D15 (log 15). -/
def Obligations.InstructionsRaiseOnlyTheirExceptions : Prop :=
  ∀ (i : Instr) (s t : State), exec i s = .next t →
    match i with
    | .invalid _ _ => t.exc = 0x03
    | .lb _ _ _ | .lbu _ _ _ => t.exc = s.exc ∨ t.exc = 0x08
    | .lh _ _ _ | .lhu _ _ _ | .lw _ _ _ => t.exc = s.exc ∨ t.exc = 0x08 ∨ t.exc = 0x05
    | .sb _ _ _ => t.exc = s.exc ∨ t.exc = 0x09 ∨ t.exc = 0x0b
    | .sh _ _ _ | .sw _ _ _ => t.exc = s.exc ∨ t.exc = 0x09 ∨ t.exc = 0x06 ∨ t.exc = 0x0b
    | .ecall _ _ _ _ => t.exc = s.exc ∨ t.exc = 0x0e ∨ t.exc = 0x0f
    | _ => t.exc = s.exc

/-! ## Invariants of every step -/

/-- The invariant `State.inv` (canonical memory below `MEMLEN`, a well-formed configuration, a legal exception status: R31, R238,
R263; log 1, log 5) is kept by every step. For `ecall` this rests on the spec's decision D15 (log 15): a handler adds no byte to
memory and raises at most exterr. -/
def Obligations.StepKeepsTheInvariant : Prop :=
  ∀ s t : State, s.inv = true → step s = .next t → t.inv = true

/-- The state after reset meets `State.inv` (the model's reset values: log 2 to log 5). -/
def Obligations.ResetMeetsTheInvariant : Prop := State.reset.inv = true

/-- R59, R54: no run changes a read-only byte, so the text segment is what was loaded; nor the launch parameters. For `ecall` this
rests on the spec's decision D15 (log 15), for stores on D7 (log 11), and that nothing else writes memory on D17 and D18 (log 17).
-/
def Obligations.ReadOnlyBytesNeverChange : Prop :=
  ∀ (n : Nat) (s t : State), Host.Core.run Sys2Proof.core n s = .next t →
    t.launch = s.launch ∧ ∀ a, isReadOnly s.launch a = true → t.mem.read a = s.mem.read a

/-! ## Frames of every instruction -/

/-- R248, R266: no instruction stops the machine by a fault or a refusal: each answers a next state, in every state (one mode:
decision D21, log 17; a handler always answers: D15, log 15). -/
def Obligations.EveryInstructionAnswersANextState : Prop :=
  ∀ (i : Instr) (s : State), ∃ t, exec i s = .next t

/-- R20, R21: no register is written but the one in the instruction's `rd` column of R75. That a handler changes no other register
is the spec's decision D15 (log 15). -/
def Obligations.OnlyTheDestinationRegisterChanges : Prop :=
  ∀ (i : Instr) (s t : State) (r : Reg), exec i s = .next t → i.dest ≠ some r → t.getReg r = s.getReg r

/-- R20, R34: a register that is neither a source nor the destination has no influence: with another value in it the instruction
does the same, and the register keeps that value. For `ecall`, that a handler sees the input and the memory and no other register
is the spec's decision D15, and so an argument the free value `Config.extAnswer` does not have (log 15). -/
def Obligations.UnreadRegistersDoNotMatter : Prop :=
  ∀ (i : Instr) (s t : State) (r : Reg) (v : Word), r ∉ i.sources → i.dest ≠ some r →
    exec i s = .next t → exec i (s.setReg r v) = .next (t.setReg r v)

/-- R46, R53, R171, R211: only the bytes of a store change memory, at the address `x[rs2] + i32` (modulo 2^32, decision D2, log
8), and an extension, which spares read-only bytes and those outside memory (decision D15, log 15). That nothing else writes
memory, a read included, is D17 (log 17). -/
def Obligations.OnlyStoredBytesChange : Prop :=
  ∀ (i : Instr) (s t : State) (a : Nat), exec i s = .next t →
    match i with
    | .sb _ rs2 imm16 => a ≠ (effAddr s rs2 imm16).toNat → t.mem.read a = s.mem.read a
    | .sh _ rs2 imm16 => (a < (effAddr s rs2 imm16).toNat ∨ (effAddr s rs2 imm16).toNat + 2 ≤ a) →
        t.mem.read a = s.mem.read a
    | .sw _ rs2 imm16 => (a < (effAddr s rs2 imm16).toNat ∨ (effAddr s rs2 imm16).toNat + 4 ≤ a) →
        t.mem.read a = s.mem.read a
    | .ecall _ _ _ _ => (isReadOnly s.launch a = true ∨ s.launch.memLen ≤ a) → t.mem.read a = s.mem.read a
    | _ => t.mem.read a = s.mem.read a

/-- 00_scope.md R8: no instruction changes the launch parameters (log 1); only `ecall` advances the model's draw counter, its own
form of the spec's decision D15 (log 15). -/
def Obligations.LaunchAndDrawsAreKept : Prop :=
  ∀ (i : Instr) (s t : State), exec i s = .next t →
    t.launch = s.launch ∧
    match i with
    | .ecall _ _ _ _ => t.draws = s.draws ∨ t.draws = s.draws + 1
    | _ => t.draws = s.draws

/-- R25: how the pc moves. An instruction that raises leaves it (the spec's decision D16, log 16), a jump or a taken branch goes
to its target, any other instruction adds 4, all modulo 2^32 (D2, log 8). That `ecall` adds 4 whatever its handler does is D15
(log 15), that `ebreak` only adds 4 is D13 (log 13). -/
def Obligations.HowThePcMoves : Prop :=
  ∀ (i : Instr) (s t : State), s.exc = 0 → exec i s = .next t →
    (t.exc ≠ 0 → t.pc = s.pc) ∧
    (t.exc = 0 →
      t.pc = match i with
        | .jal _ imm16 => s.pc + imm16.signExtend 32
        | .jalr _ rs1 imm16 => s.getReg rs1 + imm16.signExtend 32
        | .beq rs1 rs2 imm16 => if s.getReg rs1 = s.getReg rs2 then s.pc + imm16.signExtend 32 else s.pc + 4
        | .bne rs1 rs2 imm16 => if s.getReg rs1 ≠ s.getReg rs2 then s.pc + imm16.signExtend 32 else s.pc + 4
        | .blt rs1 rs2 imm16 =>
          if (s.getReg rs1).toInt < (s.getReg rs2).toInt then s.pc + imm16.signExtend 32 else s.pc + 4
        | .bltu rs1 rs2 imm16 =>
          if (s.getReg rs1).toNat < (s.getReg rs2).toNat then s.pc + imm16.signExtend 32 else s.pc + 4
        | .bge rs1 rs2 imm16 =>
          if (s.getReg rs2).toInt ≤ (s.getReg rs1).toInt then s.pc + imm16.signExtend 32 else s.pc + 4
        | .bgeu rs1 rs2 imm16 =>
          if (s.getReg rs2).toNat ≤ (s.getReg rs1).toNat then s.pc + imm16.signExtend 32 else s.pc + 4
        | _ => s.pc + 4)

/-! ## Register-register logic, subtract, minimum, maximum, compare (40_logic_compare.md) -/

/-- R101 to R104: and, or, xor, sub. That the difference of sub wraps modulo 2^32 is the spec's derivation in R120 (log 23). -/
def Obligations.LogicAndSubtractResults : Prop :=
  ∀ (rd rs1 rs2 : Reg) (s : State),
    let a := s.getReg rs1
    let b := s.getReg rs2
    Computes 0x04 (.and rd rs1 rs2) rd (a &&& b) s ∧ Computes 0x05 (.or rd rs1 rs2) rd (a ||| b) s ∧
      Computes 0x06 (.xor rd rs1 rs2) rd (a ^^^ b) s ∧ Computes 0x07 (.sub rd rs1 rs2) rd (a - b) s

/-- R105 to R108: min, minu, max, maxu. -/
def Obligations.MinimumAndMaximumResults : Prop :=
  ∀ (rd rs1 rs2 : Reg) (s : State),
    let a := s.getReg rs1
    let b := s.getReg rs2
    Computes 0x08 (.min rd rs1 rs2) rd (if a.toInt < b.toInt then a else b) s ∧
      Computes 0x09 (.minu rd rs1 rs2) rd (if a.toNat < b.toNat then a else b) s ∧
      Computes 0x0a (.max rd rs1 rs2) rd (if a.toInt ≥ b.toInt then a else b) s ∧
      Computes 0x0b (.maxu rd rs1 rs2) rd (if a.toNat ≥ b.toNat then a else b) s

/-- R109, R110: slt, sltu. -/
def Obligations.SetIfLessThanResults : Prop :=
  ∀ (rd rs1 rs2 : Reg) (s : State),
    let a := s.getReg rs1
    let b := s.getReg rs2
    Computes 0x0c (.slt rd rs1 rs2) rd (if a.toInt < b.toInt then 1 else 0) s ∧
      Computes 0x0d (.sltu rd rs1 rs2) rd (if a.toNat < b.toNat then 1 else 0) s

/-! ## Multiply, divide, remainder (41_muldiv.md) -/

/-- R121 to R124: the low word of the product, and the high word of the exact signed, unsigned and mixed product. -/
def Obligations.MultiplyResults : Prop :=
  ∀ (rd rs1 rs2 : Reg) (s : State),
    let a := s.getReg rs1
    let b := s.getReg rs2
    (∃ v : Word, Computes 0x10 (.mul rd rs1 rs2) rd v s ∧ v.toNat = a.toNat * b.toNat % 2 ^ 32) ∧
    (∃ v : Word, Computes 0x11 (.mulh rd rs1 rs2) rd v s ∧ v.toInt = a.toInt * b.toInt / 2 ^ 32) ∧
    (∃ v : Word, Computes 0x12 (.mulhu rd rs1 rs2) rd v s ∧ v.toNat = a.toNat * b.toNat / 2 ^ 32) ∧
    (∃ v : Word, Computes 0x13 (.mulhsu rd rs1 rs2) rd v s ∧ v.toInt = a.toInt * (b.toNat : Int) / 2 ^ 32)

/-- R121 to R123: the high and the low word together are the exact 64-bit product. -/
def Obligations.HighAndLowWordMakeTheProduct : Prop :=
  ∀ (rd rs1 rs2 : Reg) (s lo hi hu : State), rd ≠ .Z →
    exec (.mul rd rs1 rs2) s = .next lo → exec (.mulh rd rs1 rs2) s = .next hi →
    exec (.mulhu rd rs1 rs2) s = .next hu →
    (hi.getReg rd).toInt * 2 ^ 32 + ((lo.getReg rd).toNat : Int) = (s.getReg rs1).toInt * (s.getReg rs2).toInt ∧
      (hu.getReg rd).toNat * 2 ^ 32 + (lo.getReg rd).toNat = (s.getReg rs1).toNat * (s.getReg rs2).toNat

/-- R125: div. That the quotient is rounded toward zero is the spec's derivation from R127 (log 21). -/
def Obligations.SignedDivideResults : Prop :=
  ∀ (rd rs1 rs2 : Reg) (s : State),
    let a := s.getReg rs1
    let b := s.getReg rs2
    (b = 0 → Computes 0x14 (.div rd rs1 rs2) rd 0 s) ∧
    (a = 0x80000000 → b = 0xffffffff → Computes 0x14 (.div rd rs1 rs2) rd 0x80000000 s) ∧
    (b ≠ 0 → ¬(a = 0x80000000 ∧ b = 0xffffffff) →
      ∃ q : Word, Computes 0x14 (.div rd rs1 rs2) rd q s ∧ q.toInt = a.toInt.tdiv b.toInt)

/-- R127: rem has the magnitude of the remainder of the magnitudes and, when nonzero, the sign of the dividend; 0 for the
divisor 0. For -2147483648 by -1 the spec derives 0 (log 21). -/
def Obligations.SignedRemainderResults : Prop :=
  ∀ (rd rs1 rs2 : Reg) (s : State),
    let a := s.getReg rs1
    let b := s.getReg rs2
    ∃ r : Word, Computes 0x16 (.rem rd rs1 rs2) rd r s ∧
      (b = 0 → r = 0) ∧
      (b ≠ 0 → r.toInt.natAbs = a.toInt.natAbs % b.toInt.natAbs) ∧
      (r ≠ 0 → (r.toInt < 0 ↔ a.toInt < 0))

/-- R126, R128: divu and remu; 0 for the divisor 0. -/
def Obligations.UnsignedDivideAndRemainderResults : Prop :=
  ∀ (rd rs1 rs2 : Reg) (s : State),
    let a := s.getReg rs1
    let b := s.getReg rs2
    (∃ q : Word, Computes 0x15 (.divu rd rs1 rs2) rd q s ∧
      q.toNat = if b = 0 then 0 else a.toNat / b.toNat) ∧
    (∃ r : Word, Computes 0x17 (.remu rd rs1 rs2) rd r s ∧
      r.toNat = if b = 0 then 0 else a.toNat % b.toNat)

/-- R125 to R128: for a divisor that is not 0, quotient times divisor plus remainder is the dividend, modulo 2^32, signed and
unsigned, the overflow of div included (log 21). -/
def Obligations.QuotientTimesDivisorPlusRemainder : Prop :=
  ∀ (rd rs1 rs2 : Reg) (s q r qu ru : State), rd ≠ .Z → s.getReg rs2 ≠ 0 →
    exec (.div rd rs1 rs2) s = .next q → exec (.rem rd rs1 rs2) s = .next r →
    exec (.divu rd rs1 rs2) s = .next qu → exec (.remu rd rs1 rs2) s = .next ru →
    q.getReg rd * s.getReg rs2 + r.getReg rd = s.getReg rs1 ∧
      qu.getReg rd * s.getReg rs2 + ru.getReg rd = s.getReg rs1

/-! ## Byte reversal and bit counts (42_bitmanip.md) -/

/-- R141: revb puts byte k of the source at byte 3 - k. That the middle bytes swap too is the spec's derivation (log 25). -/
def Obligations.ReverseBytesResult : Prop :=
  ∀ (rd rs1 : Reg) (s : State), ∃ v : Word, Computes 0x18 (.revb rd rs1) rd v s ∧
    ∀ k, k < 4 → v.extractLsb' (8 * k) 8 = (s.getReg rs1).extractLsb' (24 - 8 * k) 8

/-- R142: revh swaps the half words; applied twice it is the identity. -/
def Obligations.ReverseHalfWordsResult : Prop :=
  ∀ (rd rs1 : Reg) (s : State), ∃ v : Word, Computes 0x19 (.revh rd rs1) rd v s ∧
    v.extractLsb' 0 16 = (s.getReg rs1).extractLsb' 16 16 ∧ v.extractLsb' 16 16 = (s.getReg rs1).extractLsb' 0 16 ∧
    ∀ (t : State), t.getReg rs1 = v → Computes 0x19 (.revh rd rs1) rd (s.getReg rs1) t

/-- R143, R144: clz and ctz count the zero bits before the first one bit, 32 of them for 0, which the spec derives from the
register width (log 20). -/
def Obligations.CountZerosResults : Prop :=
  ∀ (rd rs1 : Reg) (s : State),
    let v := s.getReg rs1
    (∃ n : Word, Computes 0x1a (.clz rd rs1) rd n s ∧ n.toNat ≤ 32 ∧
      (∀ k, k < n.toNat → v.getLsbD (31 - k) = false) ∧ (n.toNat < 32 → v.getLsbD (31 - n.toNat) = true)) ∧
    (∃ n : Word, Computes 0x1b (.ctz rd rs1) rd n s ∧ n.toNat ≤ 32 ∧
      (∀ k, k < n.toNat → v.getLsbD k = false) ∧ (n.toNat < 32 → v.getLsbD n.toNat = true))

/-- R145: pcnt counts the bits that are 1. -/
def Obligations.CountSetBitsResult : Prop :=
  ∀ (rd rs1 : Reg) (s : State), ∃ n : Word, Computes 0x1c (.pcnt rd rs1) rd n s ∧
    n.toNat = ((List.range 32).filter fun k => (s.getReg rs1).getLsbD k).length

/-! ## Immediates and shifts (43_immediate_alu.md) -/

/-- R151 to R153: andi, ori, xori with the sign-extended immediate. -/
def Obligations.ImmediateLogicResults : Prop :=
  ∀ (rd rs1 : Reg) (imm16 : BitVec 16) (s : State),
    Computes 0x44 (.andi rd rs1 imm16) rd (s.getReg rs1 &&& imm16.signExtend 32) s ∧
      Computes 0x45 (.ori rd rs1 imm16) rd (s.getReg rs1 ||| imm16.signExtend 32) s ∧
      Computes 0x46 (.xori rd rs1 imm16) rd (s.getReg rs1 ^^^ imm16.signExtend 32) s

/-- R154 to R156: the two amounts of a shift, of 5 bits each, add up without being masked again. -/
def Obligations.ShiftsByTwoAmounts : Prop :=
  ∀ (rd rs1 rs2 : Reg) (imm16 : BitVec 16) (s : State),
    let n := (s.getReg rs2).toNat % 32 + imm16.toNat % 32
    (∃ v : Word, Computes 0x48 (.sll rd rs1 rs2 imm16) rd v s ∧ v.toNat = (s.getReg rs1).toNat * 2 ^ n % 2 ^ 32) ∧
    (∃ v : Word, Computes 0x49 (.srl rd rs1 rs2 imm16) rd v s ∧ v.toNat = (s.getReg rs1).toNat / 2 ^ n) ∧
    (∃ v : Word, Computes 0x4a (.sra rd rs1 rs2 imm16) rd v s ∧ v.toInt = (s.getReg rs1).toInt / 2 ^ n)

/-- R157 to R159: add with its three addends, slti, sltiu. That the sum of add wraps modulo 2^32 is the spec's derivation in R120
(log 23). -/
def Obligations.AddAndCompareImmediateResults : Prop :=
  ∀ (rd rs1 rs2 : Reg) (imm16 : BitVec 16) (s : State),
    let i32 : Word := imm16.signExtend 32
    Computes 0x4b (.add rd rs1 rs2 imm16) rd (s.getReg rs1 + s.getReg rs2 + i32) s ∧
      Computes 0x4c (.slti rd rs1 imm16) rd (if (s.getReg rs1).toInt < i32.toInt then 1 else 0) s ∧
      Computes 0x4d (.sltiu rd rs1 imm16) rd (if (s.getReg rs1).toNat < i32.toNat then 1 else 0) s

/-- R160, R161: lui and auipc; the result depends on imm16 alone, and for auipc on the pc of the instruction itself. That the sum
of auipc wraps modulo 2^32 is the spec's derivation in R120 (log 23). -/
def Obligations.UpperImmediateResults : Prop :=
  ∀ (rd : Reg) (imm16 : BitVec 16) (s : State),
    Computes 0x4e (.lui rd imm16) rd (imm16 ++ 0#16) s ∧ Computes 0x4f (.auipc rd imm16) rd (s.pc + (imm16 ++ 0#16)) s

/-! ## Loads and stores (44_load_store.md) -/

/-- R172 to R176: a load in bounds and aligned gives the bytes at `x[rs1] + i32`, widened. The sum modulo 2^32 is the spec's
decision D2 (log 8), the byte order D4 (log 9), the bounds of a whole access D5 (log 10), that a read has no other effect D17 (log
17), and that a load to Z still reads is the derivation in R21 (log 26). -/
def Obligations.LoadsDeliverTheBytes : Prop :=
  ∀ (rd rs1 : Reg) (imm16 : BitVec 16) (s : State),
    let p := (s.getReg rs1 + imm16.signExtend 32).toNat
    let half : BitVec 16 := s.mem.read (p + 1) ++ s.mem.read p
    let word : Word := s.mem.read (p + 3) ++ s.mem.read (p + 2) ++ s.mem.read (p + 1) ++ s.mem.read p
    p < 0x80000000 →
    (p + 1 ≤ s.launch.memLen →
      Computes 0x50 (.lb rd rs1 imm16) rd ((s.mem.read p).signExtend 32) s ∧
        Computes 0x51 (.lbu rd rs1 imm16) rd ((s.mem.read p).setWidth 32) s) ∧
    (p + 2 ≤ s.launch.memLen → p % 2 = 0 →
      Computes 0x52 (.lh rd rs1 imm16) rd (half.signExtend 32) s ∧
        Computes 0x53 (.lhu rd rs1 imm16) rd (half.setWidth 32) s) ∧
    (p + 4 ≤ s.launch.memLen → p % 4 = 0 → Computes 0x54 (.lw rd rs1 imm16) rd word s)

/-- R49, R170, R230, R227: a load out of bounds raises lbounds, else a misaligned one lalign, and nothing else changes. The order
is the spec's decision D11 (log 12), the sum modulo 2^32 D2 (log 8), that nothing else changes D16 (log 16). That every byte of
the access must be in bounds is D5 (log 10): the model raises where an implementation might not. A load to Z raises too: the
derivation in R21 (log 26). -/
def Obligations.LoadsRaise : Prop :=
  ∀ (rd rs1 : Reg) (imm16 : BitVec 16) (s : State),
    let p := (s.getReg rs1 + imm16.signExtend 32).toNat
    let lbounds : Host.Outcome State Fault Refusal := .next { s with exc := 0x08 }
    let lalign : Host.Outcome State Fault Refusal := .next { s with exc := 0x05 }
    (0x80000000 ≤ p ∨ s.launch.memLen < p + 1 →
      exec (.lb rd rs1 imm16) s = lbounds ∧ exec (.lbu rd rs1 imm16) s = lbounds) ∧
    (0x80000000 ≤ p ∨ s.launch.memLen < p + 2 →
      exec (.lh rd rs1 imm16) s = lbounds ∧ exec (.lhu rd rs1 imm16) s = lbounds) ∧
    (p < 0x80000000 → p + 2 ≤ s.launch.memLen → p % 2 ≠ 0 →
      exec (.lh rd rs1 imm16) s = lalign ∧ exec (.lhu rd rs1 imm16) s = lalign) ∧
    (0x80000000 ≤ p ∨ s.launch.memLen < p + 4 → exec (.lw rd rs1 imm16) s = lbounds) ∧
    (p < 0x80000000 → p + 4 ≤ s.launch.memLen → p % 4 ≠ 0 → exec (.lw rd rs1 imm16) s = lalign)

/-- R177 to R179: a store in bounds, aligned and to writable bytes puts the low bytes of x[rs1] at `x[rs2] + i32` and changes
nothing else. The sum modulo 2^32 is the spec's decision D2 (log 8), the byte order D4 (log 9), the bounds of a whole access D5
(log 10), plain memory D17 (log 17). -/
def Obligations.StoresPutTheBytes : Prop :=
  ∀ (rs1 rs2 : Reg) (imm16 : BitVec 16) (s : State),
    let p := (s.getReg rs2 + imm16.signExtend 32).toNat
    let v := s.getReg rs1
    p < 0x80000000 →
    (p + 1 ≤ s.launch.memLen → isReadOnly s.launch p = false → Stores 0x55 (.sb rs1 rs2 imm16) p 1 v s) ∧
    (p + 2 ≤ s.launch.memLen → p % 2 = 0 → (∀ k, k < 2 → isReadOnly s.launch (p + k) = false) →
      Stores 0x56 (.sh rs1 rs2 imm16) p 2 v s) ∧
    (p + 4 ≤ s.launch.memLen → p % 4 = 0 → (∀ k, k < 4 → isReadOnly s.launch (p + k) = false) →
      Stores 0x57 (.sw rs1 rs2 imm16) p 4 v s)

/-- R50, R171, R231, R228, R233: a store out of bounds raises sbounds, else a misaligned one salign, else one to a read-only byte
sro, and no byte is written. The order is the spec's decision D11 (log 12), the partly read-only store D7 (log 11), the sum modulo
2^32 D2 (log 8), that nothing but `exc` changes D16 (log 16). That every byte of the access must be in bounds is D5 (log 10): the
model raises where an implementation might not. -/
def Obligations.StoresRaise : Prop :=
  ∀ (rs1 rs2 : Reg) (imm16 : BitVec 16) (s : State),
    let p := (s.getReg rs2 + imm16.signExtend 32).toNat
    let sbounds : Host.Outcome State Fault Refusal := .next { s with exc := 0x09 }
    let salign : Host.Outcome State Fault Refusal := .next { s with exc := 0x06 }
    let sro : Host.Outcome State Fault Refusal := .next { s with exc := 0x0b }
    (0x80000000 ≤ p ∨ s.launch.memLen < p + 1 → exec (.sb rs1 rs2 imm16) s = sbounds) ∧
    (0x80000000 ≤ p ∨ s.launch.memLen < p + 2 → exec (.sh rs1 rs2 imm16) s = sbounds) ∧
    (0x80000000 ≤ p ∨ s.launch.memLen < p + 4 → exec (.sw rs1 rs2 imm16) s = sbounds) ∧
    (p < 0x80000000 → p + 2 ≤ s.launch.memLen → p % 2 ≠ 0 → exec (.sh rs1 rs2 imm16) s = salign) ∧
    (p < 0x80000000 → p + 4 ≤ s.launch.memLen → p % 4 ≠ 0 → exec (.sw rs1 rs2 imm16) s = salign) ∧
    (p < 0x80000000 → p + 1 ≤ s.launch.memLen → isReadOnly s.launch p = true →
      exec (.sb rs1 rs2 imm16) s = sro) ∧
    (p < 0x80000000 → p + 2 ≤ s.launch.memLen → p % 2 = 0 → (∃ k, k < 2 ∧ isReadOnly s.launch (p + k) = true) →
      exec (.sh rs1 rs2 imm16) s = sro) ∧
    (p < 0x80000000 → p + 4 ≤ s.launch.memLen → p % 4 = 0 → (∃ k, k < 4 ∧ isReadOnly s.launch (p + k) = true) →
      exec (.sw rs1 rs2 imm16) s = sro)

/-- R55 (the spec's decision D18, log 17; plain memory D17): after a word store that completes, a word load from the same base and
displacement completes and returns the word stored. -/
def Obligations.LoadReturnsTheLatestStore : Prop :=
  ∀ (rd rs1 rs2 : Reg) (imm16 : BitVec 16) (s t : State), s.exc = 0 →
    exec (.sw rs1 rs2 imm16) s = .next t → t.exc = 0 → Computes 0x54 (.lw rd rs2 imm16) rd (s.getReg rs1) t

/-! ## Jumps and branches (45_control.md) -/

/-- R191, R192: jal and jalr link `pc + 4` and go to their target, whatever it is: a bad target is found by the next fetch
(decision D16, log 16). jalr uses x[rs1] as it was on entry, and no bit of the target is cleared. The sums are modulo 2^32 (D2,
log 8), and a jump with rd Z still jumps by the derivation in R21 (log 26). -/
def Obligations.JumpResults : Prop :=
  ∀ (rd rs1 : Reg) (imm16 : BitVec 16) (s : State),
    (opcodeOf (encode (.jal rd imm16)) = 0x58 ∧
      ∃ t, exec (.jal rd imm16) s = .next t ∧ RegisterResult s t rd (s.pc + 4) ∧
        t.pc = s.pc + imm16.signExtend 32) ∧
    (opcodeOf (encode (.jalr rd rs1 imm16)) = 0x59 ∧
      ∃ t, exec (.jalr rd rs1 imm16) s = .next t ∧ RegisterResult s t rd (s.pc + 4) ∧
        t.pc = s.getReg rs1 + imm16.signExtend 32)

/-- R193 to R198: the six branches complete and change the pc alone. That a bad target is found by the next fetch is the spec's
decision D16 (log 16), the sums modulo 2^32 are D2 (log 8). -/
def Obligations.BranchResults : Prop :=
  ∀ (rs1 rs2 : Reg) (imm16 : BitVec 16) (s : State),
    let a := s.getReg rs1
    let b := s.getReg rs2
    let goes : Prop → BitVec 7 → Instr → Prop := fun c op i => opcodeOf (encode i) = op ∧
      (c → exec i s = .next { s with pc := s.pc + imm16.signExtend 32 }) ∧
      (¬c → exec i s = .next { s with pc := s.pc + 4 })
    goes (a = b) 0x5a (.beq rs1 rs2 imm16) ∧ goes (a ≠ b) 0x5b (.bne rs1 rs2 imm16) ∧
      goes (a.toInt < b.toInt) 0x5c (.blt rs1 rs2 imm16) ∧ goes (a.toNat < b.toNat) 0x5d (.bltu rs1 rs2 imm16) ∧
      goes (a.toInt ≥ b.toInt) 0x5e (.bge rs1 rs2 imm16) ∧ goes (a.toNat ≥ b.toNat) 0x5f (.bgeu rs1 rs2 imm16)

/-! ## Breakpoint, extension call, invalid instructions (46_system.md) -/

/-- R210: ebreak advances the pc and changes nothing else. That no debugger is attached is the spec's decision D13 (log 13). -/
def Obligations.BreakpointIsANoOp : Prop :=
  ∀ s : State, encode .ebreak = 0x0000003f ∧ exec .ebreak s = .next { s with pc := s.pc + 4 }

/-- R213, R214: a word whose opcode is 0x00 or unassigned raises instr, whatever its other bits, and changes nothing else. That
the pc and all else stay at the halt is the spec's decision D16 (log 16). The run ends there by D3 and D22, which the model shows
by the fault `halted` (log 7). -/
def Obligations.InvalidWordsRaiseInstr : Prop :=
  (∀ (opcode : BitVec 7) (rest : BitVec 25) (s : State),
    exec (.invalid opcode rest) s = .next { s with exc := 0x03 }) ∧
  (∀ (w : Word) (s : State),
    (let n := (opcodeOf w).toNat
     n ≤ 0x03 ∨ n = 0x0e ∨ n = 0x0f ∨ (0x1d ≤ n ∧ n ≤ 0x3e) ∨ (0x40 ≤ n ∧ n ≤ 0x43) ∨ n = 0x47 ∨
      (0x60 ≤ n ∧ n ≤ 0x7e)) →
    exec (decode w) s = .next { s with exc := 0x03 }) ∧
  ∀ s : State, step { s with exc := 0x03 } = .fault (.halted 0x03)

/-- R236, R211, R212: extmiss is raised exactly for an id `x[rs2] + i32` at which `EXT` is not defined, never for 0x00000003;
nothing else changes, by R243 (the spec's decision D16, log 16). That a handler never raises extmiss is D15 (log 15), and the sum
modulo 2^32 of the id is the law derived in R120 (log 23). -/
def Obligations.UnsupportedExtensionRaisesExtmiss : Prop :=
  ∀ (rd rs1 rs2 : Reg) (imm16 : BitVec 16) (s : State),
    let id : Word := s.getReg rs2 + imm16.signExtend 32
    (id ≠ 0x00000003 → id ∉ s.launch.extensions → exec (.ecall rd rs1 rs2 imm16) s = .next { s with exc := 0x0e }) ∧
    (s.exc = 0 → id = 0x00000003 ∨ id ∈ s.launch.extensions →
      ∀ t, exec (.ecall rd rs1 rs2 imm16) s = .next t → t.exc ≠ 0x0e)

/-- R212: meta.check_ext tells whether an id is supported. Its convention is the spec's decision D14 (log 14). The sum modulo 2^32
of its id is the law derived in R120 (log 23), and a call with rd Z still happens by the derivation in R21 (log 26). -/
def Obligations.CheckExtTellsWhatIsSupported : Prop :=
  ∀ (rd rs1 rs2 : Reg) (imm16 : BitVec 16) (s : State), s.getReg rs2 + imm16.signExtend 32 = 0x00000003 →
    Computes 0x7f (.ecall rd rs1 rs2 imm16) rd
      (if s.getReg rs1 = 0x00000003 ∨ s.getReg rs1 ∈ s.launch.extensions then s.launch.checkExtYes
        else s.launch.checkExtNo) s

/-- R211: any other supported extension answers `err`, which raises exterr and changes nothing else (the spec's decision D16, log
16), or one value and a memory: the value goes to rd, each writable byte inside memory holds the last value the handler wrote to
it, and nothing else changes. Both, for every answer the free value `Config.extAnswer` may be (D15, log 15). The sum modulo 2^32
of the id is the law derived in R120 (log 23), and a call with rd Z still happens by the derivation in R21 (log 26). -/
def Obligations.HandlerAnswersAreDelivered : Prop :=
  ∀ (rd rs1 rs2 : Reg) (imm16 : BitVec 16) (s : State),
    let id : Word := s.getReg rs2 + imm16.signExtend 32
    id ≠ 0x00000003 → id ∈ s.launch.extensions →
    match Config.extAnswer s.launch s.draws id (s.getReg rs1) s.mem with
    | .err => exec (.ecall rd rs1 rs2 imm16) s = .next { s with exc := 0x0f }
    | .ok v ws => ∃ t, exec (.ecall rd rs1 rs2 imm16) s = .next t ∧
        (∀ r, t.getReg r = if r = .Z then 0 else if r = rd then v else s.getReg r) ∧
        (∀ a, t.mem.read a =
          if a < s.launch.memLen ∧ isReadOnly s.launch a = false then
            ((ws.reverse.find? fun c => c.1 == a).map Prod.snd).getD (s.mem.read a)
          else s.mem.read a) ∧
        t.pc = s.pc + 4 ∧ t.exc = s.exc ∧ t.launch = s.launch ∧ t.draws = s.draws + 1

/-! ## Start and loading (70_reset_and_hazards.md) -/

/-- R33, R260: the start state holds the loaded image, the entry point and the initial registers, with no exception (decision D3, log 7)
and 0 in Z, and reset is such a state (its own values: log 2 to log 5). -/
def Obligations.StartStateIsWhatIsLoaded : Prop :=
  (∀ (l : Launch) (image : Memory) (entry : Word) (init : RegFile),
    let s := State.start l image entry init
    s.exc = 0 ∧ s.getReg .Z = 0 ∧ s.pc = entry ∧ (∀ a, s.mem.read a = image.read a) ∧ s.launch = l ∧ s.regs = init) ∧
  State.reset.exc = 0 ∧ State.reset.getReg .Z = 0

/-- Log 6: a word loaded at an aligned pc below 2^31 is what the next step fetches and runs, in any state of a well-formed
configuration. The cycle is the spec's decision D18 (log 17). -/
def Obligations.LoadedWordIsTheNextInstruction : Prop :=
  ∀ (s : State) (w : Word), s.launch.wellFormed = true → s.pc.toNat % 4 = 0 → s.pc.toNat < 0x80000000 →
    step (s.withFetchWord 32 w.toNat) = exec (decode w) (s.withFetchWord 32 w.toNat)
end

