-- ==== Sys2Proof/Laws/Decode.lean ====
section
/-! SUPPORT. The fields of a packed word, and the bytes of a word. -/

namespace Sys2Proof

@[simp] theorem Reg.ofBits_bits (r : Reg) : Reg.ofBits r.bits = r := by cases r <;> rfl

@[simp] theorem Reg.bits_ofBits (b : BitVec 3) : (Reg.ofBits b).bits = b := by
  revert b; decide

/-- The bits of a packed word: the one format (R71). -/
theorem getLsbD_pack (op : BitVec 7) (rd rs1 rs2 : Reg) (imm16 : BitVec 16) (i : Nat) :
    (pack op rd rs1 rs2 imm16).getLsbD i =
      if i < 7 then op.getLsbD i
      else if i < 10 then rd.bits.getLsbD (i - 7)
      else if i < 13 then rs1.bits.getLsbD (i - 10)
      else if i < 16 then rs2.bits.getLsbD (i - 13)
      else imm16.getLsbD (i - 16) := by
  simp only [pack, BitVec.getLsbD_append]
  by_cases h7 : i < 7
  · simp [h7]
  · by_cases h10 : i < 10
    · simp [h7, h10, show i - 7 < 3 by omega]
    · by_cases h13 : i < 13
      · simp [h7, h10, h13, show ¬ i - 7 < 3 by omega, show i - 7 - 3 = i - 10 by omega,
          show i - 10 < 3 by omega]
      · by_cases h16 : i < 16
        · simp [h7, h10, h13, h16, show ¬ i - 7 < 3 by omega, show ¬ i - 7 - 3 < 3 by omega,
            show i - 7 - 3 - 3 = i - 13 by omega, show i - 13 < 3 by omega]
        · simp [h7, h10, h13, h16, show ¬ i - 7 < 3 by omega, show ¬ i - 7 - 3 < 3 by omega,
            show ¬ i - 7 - 3 - 3 < 3 by omega, show i - 7 - 3 - 3 - 3 = i - 16 by omega]

@[simp] theorem opcodeOf_pack (op : BitVec 7) (rd rs1 rs2 : Reg) (imm16 : BitVec 16) :
    opcodeOf (pack op rd rs1 rs2 imm16) = op := by
  ext i hi
  simp [opcodeOf, getLsbD_pack, hi]

theorem rdField_pack (op : BitVec 7) (rd rs1 rs2 : Reg) (imm16 : BitVec 16) :
    (pack op rd rs1 rs2 imm16).extractLsb' 7 3 = rd.bits := by
  ext i hi
  simp [getLsbD_pack, show 7 + i < 10 by omega, BitVec.getLsbD_eq_getElem hi]

theorem rs1Field_pack (op : BitVec 7) (rd rs1 rs2 : Reg) (imm16 : BitVec 16) :
    (pack op rd rs1 rs2 imm16).extractLsb' 10 3 = rs1.bits := by
  ext i hi
  simp [getLsbD_pack, show ¬ 10 + i < 7 by omega, show 10 + i < 13 by omega, BitVec.getLsbD_eq_getElem hi]

theorem rs2Field_pack (op : BitVec 7) (rd rs1 rs2 : Reg) (imm16 : BitVec 16) :
    (pack op rd rs1 rs2 imm16).extractLsb' 13 3 = rs2.bits := by
  ext i hi
  simp [getLsbD_pack, show ¬ 13 + i < 7 by omega, show ¬ 13 + i < 10 by omega, show 13 + i < 16 by omega,
    BitVec.getLsbD_eq_getElem hi]

@[simp] theorem rdOf_pack (op : BitVec 7) (rd rs1 rs2 : Reg) (imm16 : BitVec 16) :
    rdOf (pack op rd rs1 rs2 imm16) = rd := by simp [rdOf, rdField_pack]

@[simp] theorem rs1Of_pack (op : BitVec 7) (rd rs1 rs2 : Reg) (imm16 : BitVec 16) :
    rs1Of (pack op rd rs1 rs2 imm16) = rs1 := by simp [rs1Of, rs1Field_pack]

@[simp] theorem rs2Of_pack (op : BitVec 7) (rd rs1 rs2 : Reg) (imm16 : BitVec 16) :
    rs2Of (pack op rd rs1 rs2 imm16) = rs2 := by simp [rs2Of, rs2Field_pack]

@[simp] theorem imm16Of_pack (op : BitVec 7) (rd rs1 rs2 : Reg) (imm16 : BitVec 16) :
    imm16Of (pack op rd rs1 rs2 imm16) = imm16 := by
  ext i hi
  simp [imm16Of, getLsbD_pack, show ¬ 16 + i < 7 by omega, show ¬ 16 + i < 10 by omega, show ¬ 16 + i < 13 by omega,
    BitVec.getLsbD_eq_getElem hi]

/-- The opcode of an unassigned word's parts. -/
@[simp] theorem opcodeOf_append (rest : BitVec 25) (op : BitVec 7) : opcodeOf (rest ++ op) = op := by
  ext i hi
  simp only [opcodeOf, BitVec.getElem_extractLsb', BitVec.getLsbD_append]
  simp [hi]

@[simp] theorem restOf_append (rest : BitVec 25) (op : BitVec 7) : restOf (rest ++ op) = rest := by
  ext i hi
  simp only [restOf, BitVec.getElem_extractLsb', BitVec.getLsbD_append]
  simp [BitVec.getLsbD_eq_getElem hi]

/-- The fields of a packed word go to the opcode map as they were packed. -/
theorem decode_pack (op : BitVec 7) (rd rs1 rs2 : Reg) (imm16 : BitVec 16) :
    decode (pack op rd rs1 rs2 imm16) = instrOf op rd rs1 rs2 imm16 (restOf (pack op rd rs1 rs2 imm16)) := by
  simp [decode]

/-- The four bytes of a word make the word (R44). -/
theorem decodeBytes_bytesOfWord (w : Word) : decodeBytes (bytesOfWord w) = .ok (decode w, []) := by
  have h : wordOfBytes (w.extractLsb' 0 8) (w.extractLsb' 8 8) (w.extractLsb' 16 8) (w.extractLsb' 24 8) = w := by
    apply BitVec.eq_of_getLsbD_eq
    intro i hi
    simp only [wordOfBytes, BitVec.getLsbD_append, BitVec.getLsbD_extractLsb']
    split
    · simp [*]
    · split
      · simp [*, show 8 + (i - 8) = i by omega]
      · split
        · simp [*, show 16 + (i - 8 - 8) = i by omega]
        · simp [*, show 24 + (i - 8 - 8 - 8) = i by omega, show i - 8 - 8 - 8 < 8 by omega]
  simp [bytesOfWord, decodeBytes, h]

/-- `decodeTableWord` decodes the word of the given bits. -/
theorem decodeTableWord_eq (nbits w : Nat) :
    decodeTableWord nbits w = some (decode (BitVec.ofNat 32 (w % 2 ^ nbits))) := by
  simp [decodeTableWord, decodeBytes_bytesOfWord]

end Sys2Proof
end

