-- ==== Sys2Proof/Laws/Memory.lean ====
section
/-! SUPPORT. Memory: what a read finds after a write, and that every memory operation keeps the canonical form and the
length of memory. -/

namespace Sys2Proof.Machine

@[simp] theorem Memory.read_nil (a : Nat) : Memory.read [] a = Memory.blank := rfl

theorem Memory.read_cons (b : Nat) (v : Byte) (m : Memory) (a : Nat) :
    Memory.read ((b, v) :: m) a = if a = b then v else Memory.read m a := rfl

theorem Memory.read_filter_self (m : Memory) (a : Nat) :
    Memory.read (m.filter fun c => c.1 != a) a = Memory.blank := by
  induction m with
  | nil => rfl
  | cons c m ih =>
    obtain ⟨b, u⟩ := c
    by_cases h : b = a
    · simpa [h] using ih
    · simpa [h, Memory.read_cons, Ne.symm h] using ih

theorem Memory.read_filter_ne (m : Memory) {a x : Nat} (h : x ≠ a) :
    Memory.read (m.filter fun c => c.1 != a) x = Memory.read m x := by
  induction m with
  | nil => rfl
  | cons c m ih =>
    obtain ⟨b, u⟩ := c
    by_cases hb : b = a
    · have hx : x ≠ b := by omega
      simpa [hb, Memory.read_cons, hx, h] using ih
    · by_cases hx : x = b
      · subst hx; simp [hb, Memory.read_cons]
      · simpa [hb, Memory.read_cons, hx] using ih

/-- Where no cell of `m` has the address `a`, an inserted cell is the one a read of `a` finds, and no other read
changes. -/
theorem Memory.read_insertCell (m : Memory) (a : Nat) (v : Byte) (h : ∀ c ∈ m, c.1 ≠ a) (x : Nat) :
    Memory.read (Memory.insertCell a v m) x = if x = a then v else Memory.read m x := by
  induction m with
  | nil => rfl
  | cons c m ih =>
    obtain ⟨b, u⟩ := c
    have hb : b ≠ a := h (b, u) (by simp)
    have ih := ih fun c hc => h c (List.mem_cons_of_mem _ hc)
    unfold Memory.insertCell
    split
    · simp [Memory.read_cons]
    · simp only [Memory.read_cons, ih]
      by_cases hx : x = a
      · simp [hx, hb.symm]
      · simp [hx]

/-- A read after a write: the value written, and everywhere else what was there. -/
theorem Memory.read_write (m : Memory) (a : Nat) (v : Byte) (x : Nat) :
    (m.write a v).read x = if x = a then v else m.read x := by
  have hmem : ∀ c ∈ m.filter (fun c => c.1 != a), c.1 ≠ a := by
    intro c hc
    simpa using (List.mem_filter.mp hc).2
  unfold Memory.write
  by_cases hv : v = Memory.blank
  · by_cases hx : x = a
    · subst hx; simp [hv, Memory.read_filter_self]
    · simp [hv, hx, Memory.read_filter_ne m hx]
  · rw [if_neg hv, Memory.read_insertCell _ a v hmem]
    by_cases hx : x = a
    · simp [hx]
    · simp [hx, Memory.read_filter_ne m hx]

/-- The bytes after `memWrite`: byte `k` of the value at `p + k`, and no other byte changed. -/
theorem read_memWrite (m : Memory) (p n : Nat) (v : Word) (x : Nat) :
    (memWrite m p n v).read x =
      if p ≤ x ∧ x < p + n then v.extractLsb' (8 * (x - p)) 8 else m.read x := by
  induction n generalizing m p v with
  | zero => simp [memWrite]
  | succ n ih =>
    rw [memWrite, ih, Memory.read_write]
    by_cases h : p + 1 ≤ x ∧ x < p + 1 + n
    · rw [if_pos h, if_pos (by omega)]
      ext i hi
      simp only [BitVec.getElem_extractLsb', BitVec.getLsbD_ushiftRight]
      congr 1; omega
    · rw [if_neg h]
      by_cases hx : x = p
      · subst hx
        rw [if_pos rfl, if_pos (by omega)]
        ext i hi
        simp
      · rw [if_neg hx, if_neg (by omega)]

theorem memRead_zero (m : Memory) (p : Nat) : memRead m p 0 = 0 := rfl

/-- A read of several bytes depends on those bytes alone. -/
theorem memRead_congr {m m' : Memory} {p n : Nat} (h : ∀ x, p ≤ x → x < p + n → m.read x = m'.read x) :
    memRead m p n = memRead m' p n := by
  induction n generalizing p with
  | zero => rfl
  | succ n ih =>
    rw [memRead, memRead, ih fun x hx hx' => h x (by omega) (by omega), h p (by omega) (by omega)]

/-- One byte, widened with zeros. -/
theorem memRead_one (m : Memory) (p : Nat) : memRead m p 1 = (m.read p).setWidth 32 := by
  simp [memRead]

/-- Two bytes, the lower address least significant (R45). -/
theorem memRead_two (m : Memory) (p : Nat) :
    memRead m p 2 = (m.read (p + 1) ++ m.read p : BitVec 16).setWidth 32 := by
  apply BitVec.eq_of_getLsbD_eq
  intro i hi
  simp only [memRead, BitVec.getLsbD_or, BitVec.getLsbD_shiftLeft, BitVec.getLsbD_setWidth, BitVec.getLsbD_append]
  by_cases h : i < 8
  · simp [h, hi]
  · simp only [h, hi, decide_true, decide_false]
    rw [BitVec.getLsbD_of_ge (m.read p) i (by omega)]
    by_cases h16 : i < 16
    · simp [show i - 8 < 32 by omega]
    · simp [BitVec.getLsbD_of_ge (m.read (p + 1)) (i - 8) (by omega)]

/-- Four bytes, the lower address less significant (R45). -/
theorem memRead_four (m : Memory) (p : Nat) :
    memRead m p 4 = m.read (p + 3) ++ m.read (p + 2) ++ m.read (p + 1) ++ m.read p := by
  apply BitVec.eq_of_getLsbD_eq
  intro i hi
  simp only [memRead, BitVec.getLsbD_or, BitVec.getLsbD_shiftLeft, BitVec.getLsbD_setWidth, BitVec.getLsbD_append]
  by_cases h : i < 8
  · simp [h, hi]
  · rw [BitVec.getLsbD_of_ge (m.read p) i (by omega)]
    by_cases h16 : i < 16
    · simp [h, hi, show i - 8 < 8 by omega, show i - 8 < 32 by omega]
    · rw [BitVec.getLsbD_of_ge (m.read (p + 1)) (i - 8) (by omega)]
      by_cases h24 : i < 24
      · simp [h, hi, show ¬ i - 8 < 8 by omega, show i - 8 - 8 < 8 by omega, show i - 8 < 32 by omega,
          show i - 8 - 8 < 32 by omega]
      · rw [BitVec.getLsbD_of_ge (m.read (p + 2)) (i - 8 - 8) (by omega)]
        simp [h, hi, show ¬ i - 8 < 8 by omega, show ¬ i - 8 - 8 < 8 by omega, show i - 8 < 32 by omega,
          show i - 8 - 8 < 32 by omega, show i - 8 - 8 - 8 < 32 by omega, Nat.add_assoc]

/-! The canonical form. -/

/-- The canonical form, as a property of the list: addresses strictly rising, and no cell blank. -/
theorem Memory.wf_iff (m : Memory) :
    m.wf = true ↔ m.Pairwise (fun c d => c.1 < d.1) ∧ ∀ c ∈ m, c.2 ≠ Memory.blank := by
  induction m with
  | nil => simp [Memory.wf]
  | cons c m ih =>
    obtain ⟨a, v⟩ := c
    cases m with
    | nil => simp [Memory.wf]
    | cons d m =>
      obtain ⟨b, u⟩ := d
      simp only [Memory.wf, Bool.and_eq_true, decide_eq_true_eq, ih]
      constructor
      · rintro ⟨⟨hab, hv⟩, hp, hc⟩
        refine ⟨List.pairwise_cons.mpr ⟨?_, hp⟩, ?_⟩
        · intro e he
          rcases List.mem_cons.mp he with rfl | he
          · exact hab
          · exact Nat.lt_trans hab ((List.pairwise_cons.mp hp).1 e he)
        · intro e he
          rcases List.mem_cons.mp he with rfl | he
          · simpa using hv
          · exact hc e he
      · rintro ⟨hp, hc⟩
        have hp' := List.pairwise_cons.mp hp
        exact ⟨⟨hp'.1 (b, u) (by simp), by simpa using hc (a, v) (by simp)⟩, hp'.2,
          fun e he => hc e (List.mem_cons_of_mem _ he)⟩

theorem Memory.mem_insertCell {a : Nat} {v : Byte} {m : Memory} {c : Host.Cell} :
    c ∈ Memory.insertCell a v m ↔ c = (a, v) ∨ c ∈ m := by
  induction m with
  | nil => simp [Memory.insertCell]
  | cons d m ih =>
    obtain ⟨b, u⟩ := d
    unfold Memory.insertCell
    split
    · simp
    · simp only [List.mem_cons, ih]; tauto

theorem Memory.pairwise_insertCell {a : Nat} {v : Byte} {m : Memory}
    (hp : m.Pairwise fun c d => c.1 < d.1) (h : ∀ c ∈ m, c.1 ≠ a) :
    (Memory.insertCell a v m).Pairwise fun c d => c.1 < d.1 := by
  induction m with
  | nil => simp [Memory.insertCell]
  | cons d m ih =>
    obtain ⟨b, u⟩ := d
    have hp' := List.pairwise_cons.mp hp
    have hb : b ≠ a := h (b, u) (by simp)
    unfold Memory.insertCell
    split
    · rename_i hab
      refine List.pairwise_cons.mpr ⟨?_, hp⟩
      intro e he
      rcases List.mem_cons.mp he with rfl | he
      · exact hab
      · exact Nat.lt_trans hab (hp'.1 e he)
    · rename_i hab
      refine List.pairwise_cons.mpr ⟨?_, ih hp'.2 fun c hc => h c (List.mem_cons_of_mem _ hc)⟩
      intro e he
      rcases Memory.mem_insertCell.mp he with rfl | he
      · simp; omega
      · exact hp'.1 e he

/-- A write keeps the canonical form. -/
theorem Memory.wf_write {m : Memory} (h : m.wf) (a : Nat) (v : Byte) : (m.write a v).wf := by
  rw [Memory.wf_iff] at h ⊢
  obtain ⟨hp, hc⟩ := h
  have hp' := hp.filter fun c => c.1 != a
  have hc' : ∀ c ∈ m.filter (fun c => c.1 != a), c.2 ≠ Memory.blank := fun c h => hc c (List.mem_filter.mp h).1
  have hne : ∀ c ∈ m.filter (fun c => c.1 != a), c.1 ≠ a := by
    intro c hc
    simpa using (List.mem_filter.mp hc).2
  unfold Memory.write
  by_cases hv : v = Memory.blank
  · rw [if_pos hv]
    exact ⟨hp', hc'⟩
  · rw [if_neg hv]
    refine ⟨Memory.pairwise_insertCell hp' hne, fun c hm => ?_⟩
    rcases Memory.mem_insertCell.mp hm with rfl | hm
    · exact hv
    · exact hc' c hm

/-- A write below the length keeps memory within the length. -/
theorem Memory.within_write {m : Memory} {len a : Nat} (h : m.within len) (ha : a < len) (v : Byte) :
    (m.write a v).within len := by
  simp only [Memory.within, List.all_eq_true, decide_eq_true_eq] at h ⊢
  intro c hm
  unfold Memory.write at hm
  split at hm
  · exact h c (List.mem_filter.mp hm).1
  · rcases Memory.mem_insertCell.mp hm with rfl | hm
    · exact ha
    · exact h c (List.mem_filter.mp hm).1

theorem memWrite_wf {m : Memory} (h : m.wf) (p n : Nat) (v : Word) : (memWrite m p n v).wf := by
  induction n generalizing m p v with
  | zero => exact h
  | succ n ih => exact ih (Memory.wf_write h ..) ..

theorem memWrite_within {m : Memory} {len p n : Nat} (h : m.within len) (hp : p + n ≤ len) (v : Word) :
    (memWrite m p n v).within len := by
  induction n generalizing m p v with
  | zero => exact h
  | succ n ih => exact ih (Memory.within_write h (by omega) _) (by omega) _

/-- An extension's writes keep the canonical form. -/
theorem extWrites_wf {l : Launch} {m : Memory} (h : m.wf) (ws : List Host.Cell) : (extWrites l ws m).wf := by
  induction ws generalizing m with
  | nil => exact h
  | cons c ws ih =>
    unfold extWrites
    split
    · exact ih (Memory.wf_write h ..)
    · exact ih h

/-- An extension's writes stay below `MEMLEN`. -/
theorem extWrites_within {l : Launch} {m : Memory} (h : m.within l.memLen) (ws : List Host.Cell) :
    (extWrites l ws m).within l.memLen := by
  induction ws generalizing m with
  | nil => exact h
  | cons c ws ih =>
    unfold extWrites
    split
    · rename_i hc
      simp only [Bool.and_eq_true, decide_eq_true_eq] at hc
      exact ih (Memory.within_write h hc.1 _)
    · exact ih h

/-- An extension's writes leave every read-only byte, and every byte at or above `MEMLEN`, as it was (R211). -/
theorem read_extWrites_protected {l : Launch} {a : Nat} (h : isReadOnly l a = true ∨ l.memLen ≤ a) (m : Memory)
    (ws : List Host.Cell) : (extWrites l ws m).read a = m.read a := by
  induction ws generalizing m with
  | nil => rfl
  | cons c ws ih =>
    obtain ⟨b, v⟩ := c
    unfold extWrites
    rw [ih]
    split
    · rename_i hb
      simp only [Bool.and_eq_true, decide_eq_true_eq, Bool.not_eq_true'] at hb
      have hne : a ≠ b := by
        rintro rfl
        rcases h with h | h
        · simp [h] at hb
        · omega
      rw [Memory.read_write, if_neg hne]
    · rfl

end Sys2Proof.Machine
end

