-- ==== Sys2Proof/Laws/State.lean ====
section
/-! SUPPORT. The small lemmas of the register file and of the state's updates: one per field per update. -/

namespace Sys2Proof.Machine

theorem RegFile.get_set (f : RegFile) (r q : Reg) (v : Word) :
    (f.set r v).get q = if q = r ∧ r ≠ .Z then v else f.get q := by
  cases r <;> cases q <;> simp [RegFile.get, RegFile.set]

theorem RegFile.set_comm (f : RegFile) {r q : Reg} (v u : Word) (h : r ≠ q) :
    (f.set r v).set q u = (f.set q u).set r v := by
  cases r <;> cases q <;> first | rfl | exact absurd rfl h

@[simp] theorem State.getReg_Z (s : State) : s.getReg .Z = 0 := rfl
@[simp] theorem State.setReg_Z (s : State) (v : Word) : s.setReg .Z v = s := rfl
@[simp] theorem State.setReg_pc (s : State) (r : Reg) (v : Word) : (s.setReg r v).pc = s.pc := rfl
@[simp] theorem State.setReg_exc (s : State) (r : Reg) (v : Word) : (s.setReg r v).exc = s.exc := rfl
@[simp] theorem State.setReg_mem (s : State) (r : Reg) (v : Word) : (s.setReg r v).mem = s.mem := rfl
@[simp] theorem State.setReg_launch (s : State) (r : Reg) (v : Word) : (s.setReg r v).launch = s.launch := rfl
@[simp] theorem State.setReg_draws (s : State) (r : Reg) (v : Word) : (s.setReg r v).draws = s.draws := rfl

theorem State.getReg_setReg (s : State) (r q : Reg) (v : Word) :
    (s.setReg r v).getReg q = if q = r ∧ r ≠ .Z then v else s.getReg q := RegFile.get_set ..

@[simp] theorem State.getReg_setReg_self (s : State) {r : Reg} (v : Word) (h : r ≠ .Z) :
    (s.setReg r v).getReg r = v := by simp [State.getReg_setReg, h]

@[simp] theorem State.getReg_setReg_ne (s : State) {r q : Reg} (v : Word) (h : q ≠ r) :
    (s.setReg r v).getReg q = s.getReg q := by simp [State.getReg_setReg, h]

@[simp] theorem State.getReg_with_pc (s : State) (t : Word) (r : Reg) :
    State.getReg { s with pc := t } r = s.getReg r := rfl
@[simp] theorem State.getReg_with_exc (s : State) (c : BitVec 7) (r : Reg) :
    State.getReg { s with exc := c } r = s.getReg r := rfl
@[simp] theorem State.getReg_with_mem (s : State) (m : Memory) (r : Reg) :
    State.getReg { s with mem := m } r = s.getReg r := rfl

@[simp] theorem State.start_exc (l : Launch) (m : Memory) (p : Word) (f : RegFile) : (State.start l m p f).exc = 0 := rfl
@[simp] theorem State.start_pc (l : Launch) (m : Memory) (p : Word) (f : RegFile) : (State.start l m p f).pc = p := rfl
@[simp] theorem State.start_mem (l : Launch) (m : Memory) (p : Word) (f : RegFile) : (State.start l m p f).mem = m := rfl
@[simp] theorem State.start_regs (l : Launch) (m : Memory) (p : Word) (f : RegFile) : (State.start l m p f).regs = f := rfl
@[simp] theorem State.start_launch (l : Launch) (m : Memory) (p : Word) (f : RegFile) :
    (State.start l m p f).launch = l := rfl

@[simp] theorem State.withFetchWord_exc (s : State) (n w : Nat) : (s.withFetchWord n w).exc = 0 := rfl
@[simp] theorem State.withFetchWord_pc (s : State) (n w : Nat) : (s.withFetchWord n w).pc = s.pc := rfl
@[simp] theorem State.withFetchWord_regs (s : State) (n w : Nat) : (s.withFetchWord n w).regs = s.regs := rfl
@[simp] theorem State.withFetchWord_mem (s : State) (n w : Nat) :
    (s.withFetchWord n w).mem = memWrite s.mem s.pc.toNat 4 (BitVec.ofNat 32 (w % 2 ^ n)) := rfl
@[simp] theorem State.withFetchWord_launch (s : State) (n w : Nat) :
    (s.withFetchWord n w).launch = s.launchForFetch := rfl
@[simp] theorem State.withFetchWord_draws (s : State) (n w : Nat) : (s.withFetchWord n w).draws = s.draws := rfl

end Sys2Proof.Machine
end

