-- ==== Sys2Proof/Laws/Ops.lean ====
section
/-! SUPPORT. One lemma per shared operation that says everything it can do. -/

namespace Sys2Proof.Machine

/-! Conditions. -/

theorem inBounds_iff (l : Launch) (addr : Word) (n : Nat) :
    inBounds l addr n = true ↔ addr.toNat < 0x80000000 ∧ addr.toNat + n ≤ l.memLen := by
  simp only [inBounds, Bool.and_eq_true, decide_eq_true_eq, BitVec.toInt_eq_toNat_cond]
  have := addr.isLt
  constructor
  · rintro ⟨h, h'⟩
    refine ⟨?_, h'⟩
    split at h <;> omega
  · rintro ⟨h, h'⟩
    refine ⟨?_, h'⟩
    split <;> omega

theorem isAligned_iff (addr : Word) (n : Nat) : isAligned addr n = true ↔ addr.toNat % n = 0 := by
  simp [isAligned]

theorem isExec_iff (l : Launch) (a : Nat) : isExec l a = true ↔ l.textStart ≤ a ∧ a < l.textEnd := by
  simp [isExec]

theorem isReadOnly_iff (l : Launch) (a : Nat) :
    isReadOnly l a = true ↔
      (l.textStart ≤ a ∧ a < l.textEnd) ∨ ∃ r ∈ l.readOnlyRanges, r.1 ≤ a ∧ a < r.2 := by
  simp [isReadOnly, isExec_iff]

/-- The text segment is read-only (R263, constraint 3). -/
theorem isReadOnly_of_isExec {l : Launch} {a : Nat} (h : isExec l a) : isReadOnly l a := by
  simp [isReadOnly, h]

theorem anyReadOnly_iff (l : Launch) (a n : Nat) :
    anyReadOnly l a n = true ↔ ∃ k, k < n ∧ isReadOnly l (a + k) = true := by
  simp [anyReadOnly]

theorem extSupported_iff (l : Launch) (id : Word) : extSupported l id = true ↔ id = 3#32 ∨ id ∈ l.extensions := by
  simp [extSupported, metaCheckExt]

/-- `EXT` is defined at 0x00000003 (R212; R263, constraint 6). -/
theorem extSupported_metaCheckExt (l : Launch) : extSupported l metaCheckExt := by
  simp [extSupported]

theorem wellFormed_iff (l : Launch) :
    l.wellFormed = true ↔
      l.memLen ≤ 0x80000000 ∧ l.textStart ≤ l.textEnd ∧ l.textEnd ≤ l.memLen ∧ l.checkExtYes ≠ l.checkExtNo := by
  simp [Launch.wellFormed, Launch.memLenOk, Launch.textOk, Launch.checkExtOk, and_assoc]

/-! Raising and ending. -/

theorem raise_eq_next {e : Exc} {s t : State} : raise e s = .next t ↔ t = { s with exc := e.code } := by
  simp [raise, eq_comm]

theorem goTo_eq_next {p : Word} {s t : State} : goTo p s = .next t ↔ t = { s with pc := p } := by
  simp [goTo, eq_comm]

theorem advance_eq_next {s t : State} : advance s = .next t ↔ t = { s with pc := s.pc + 4 } := by
  simp [advance, nextPc, goTo_eq_next]

theorem writeAndAdvance_eq_next {rd : Reg} {v : Word} {s t : State} :
    writeAndAdvance rd v s = .next t ↔ t = { s.setReg rd v with pc := s.pc + 4 } := by
  simp [writeAndAdvance, advance_eq_next]

theorem linkAndGoTo_eq_next {rd : Reg} {p : Word} {s t : State} :
    linkAndGoTo rd p s = .next t ↔ t = { s.setReg rd (s.pc + 4) with pc := p } := by
  simp [linkAndGoTo, goTo_eq_next, nextPc]

theorem branchIf_eq_next {c : Bool} {imm16 : BitVec 16} {s t : State} :
    branchIf c imm16 s = .next t ↔ t = { s with pc := if c then s.pc + imm32 imm16 else s.pc + 4 } := by
  cases c <;> simp [branchIf, advance_eq_next, goTo_eq_next, pcTarget]

/-- A register write with any pc is a `RegisterResult`. -/
theorem registerResult_setReg (s : State) (rd : Reg) (v p : Word) :
    RegisterResult s { s.setReg rd v with pc := p } rd v where
  dest h := State.getReg_setReg_self s v h
  zero := rfl
  registers _ h := State.getReg_setReg_ne s v h
  memory _ := rfl
  exc := rfl
  launch := rfl
  draws := rfl

/-- What an instruction that ends in `writeAndAdvance` does. -/
theorem computes_of_writeAndAdvance {op : BitVec 7} {i : Instr} {rd : Reg} {v : Word} {s : State}
    (ho : opcodeOf (encode i) = op) (h : exec i s = writeAndAdvance rd v s) : Computes op i rd v s :=
  ⟨ho, _, h.trans (writeAndAdvance_eq_next.mpr rfl), registerResult_setReg .., rfl⟩

/-! The checked accesses. -/

/-- Everything `load` can do (R49). -/
theorem load_cases (s : State) (addr : Word) (n : Nat) :
    (¬(addr.toNat < 0x80000000 ∧ addr.toNat + n ≤ s.launch.memLen) ∧ load s addr n = .error .lbounds) ∨
      ((addr.toNat < 0x80000000 ∧ addr.toNat + n ≤ s.launch.memLen) ∧ addr.toNat % n ≠ 0 ∧
        load s addr n = .error .lalign) ∨
      ((addr.toNat < 0x80000000 ∧ addr.toNat + n ≤ s.launch.memLen) ∧ addr.toNat % n = 0 ∧
        load s addr n = .ok (memRead s.mem addr.toNat n)) := by
  simp only [ne_eq]
  rw [← inBounds_iff, ← isAligned_iff]
  unfold load
  cases inBounds s.launch addr n <;> cases isAligned addr n <;> simp

/-- Everything `store` can do (R50). -/
theorem store_cases (s : State) (addr : Word) (n : Nat) (v : Word) :
    (¬(addr.toNat < 0x80000000 ∧ addr.toNat + n ≤ s.launch.memLen) ∧ store s addr n v = .error .sbounds) ∨
      ((addr.toNat < 0x80000000 ∧ addr.toNat + n ≤ s.launch.memLen) ∧ addr.toNat % n ≠ 0 ∧
        store s addr n v = .error .salign) ∨
      ((addr.toNat < 0x80000000 ∧ addr.toNat + n ≤ s.launch.memLen) ∧ addr.toNat % n = 0 ∧
        (∃ k, k < n ∧ isReadOnly s.launch (addr.toNat + k) = true) ∧ store s addr n v = .error .sro) ∨
      ((addr.toNat < 0x80000000 ∧ addr.toNat + n ≤ s.launch.memLen) ∧ addr.toNat % n = 0 ∧
        (∀ k, k < n → isReadOnly s.launch (addr.toNat + k) = false) ∧
        store s addr n v = .ok { s with mem := memWrite s.mem addr.toNat n v }) := by
  have hro : (∀ k, k < n → isReadOnly s.launch (addr.toNat + k) = false) ↔
      anyReadOnly s.launch addr.toNat n = false := by
    rw [← Bool.not_eq_true, anyReadOnly_iff]; simp
  simp only [ne_eq]
  rw [← inBounds_iff, ← isAligned_iff, ← anyReadOnly_iff, hro]
  unfold store
  cases inBounds s.launch addr n <;> cases isAligned addr n <;> cases anyReadOnly s.launch addr.toNat n <;> simp

/-- Everything `fetch` can do (R51). -/
theorem fetch_cases (s : State) :
    (¬(s.pc.toNat < 0x80000000 ∧ s.pc.toNat + 4 ≤ s.launch.memLen) ∧ fetch s = .error .pcbounds) ∨
      ((s.pc.toNat < 0x80000000 ∧ s.pc.toNat + 4 ≤ s.launch.memLen) ∧ s.pc.toNat % 4 ≠ 0 ∧
        fetch s = .error .pcalign) ∨
      ((s.pc.toNat < 0x80000000 ∧ s.pc.toNat + 4 ≤ s.launch.memLen) ∧ s.pc.toNat % 4 = 0 ∧
        ¬(s.launch.textStart ≤ s.pc.toNat ∧ s.pc.toNat + 4 ≤ s.launch.textEnd) ∧ fetch s = .error .pcexec) ∨
      ((s.pc.toNat < 0x80000000 ∧ s.pc.toNat + 4 ≤ s.launch.memLen) ∧ s.pc.toNat % 4 = 0 ∧
        (s.launch.textStart ≤ s.pc.toNat ∧ s.pc.toNat + 4 ≤ s.launch.textEnd) ∧
        fetch s = .ok (memRead s.mem s.pc.toNat 4)) := by
  have hx : (s.launch.textStart ≤ s.pc.toNat ∧ s.pc.toNat + 4 ≤ s.launch.textEnd) ↔
      (isExec s.launch s.pc.toNat && isExec s.launch (s.pc.toNat + 3)) = true := by
    simp only [isExec, Bool.and_eq_true, decide_eq_true_eq]; omega
  simp only [ne_eq]
  rw [← inBounds_iff, ← isAligned_iff, hx]
  unfold fetch
  cases inBounds s.launch s.pc 4 <;> cases isAligned s.pc 4 <;>
    cases (isExec s.launch s.pc.toNat && isExec s.launch (s.pc.toNat + 3)) <;> simp

/-- Everything a load instruction can do (R170). -/
theorem loadTo_cases {rd base : Reg} {imm16 : BitVec 16} {w : Width} {f : Word → Word} {s t : State}
    (h : loadTo rd base imm16 w f s = .next t) :
    (∃ e, (e = .lbounds ∨ (e = .lalign ∧ w ≠ .byte)) ∧ t = { s with exc := Exc.code e }) ∨
      t = { s.setReg rd (f (memRead s.mem (effAddr s base imm16).toNat (widthBytes w))) with pc := s.pc + 4 } := by
  unfold loadTo at h
  rcases load_cases s (effAddr s base imm16) (widthBytes w) with ⟨_, hl⟩ | ⟨_, hm, hl⟩ | ⟨_, _, hl⟩ <;>
    rw [hl] at h
  · exact .inl ⟨_, .inl rfl, raise_eq_next.mp h⟩
  · refine .inl ⟨_, .inr ⟨rfl, ?_⟩, raise_eq_next.mp h⟩
    rintro rfl
    exact hm (Nat.mod_one _)
  · exact .inr (writeAndAdvance_eq_next.mp h)

/-- Everything a store instruction can do (R171). -/
theorem storeFrom_cases {value base : Reg} {imm16 : BitVec 16} {w : Width} {s t : State}
    (h : storeFrom value base imm16 w s = .next t) :
    (∃ e, (e = .sbounds ∨ (e = .salign ∧ w ≠ .byte) ∨ e = .sro) ∧ t = { s with exc := Exc.code e }) ∨
      (((effAddr s base imm16).toNat + widthBytes w ≤ s.launch.memLen ∧
        ∀ k, k < widthBytes w → isReadOnly s.launch ((effAddr s base imm16).toNat + k) = false) ∧
        t = { s with
          mem := memWrite s.mem (effAddr s base imm16).toNat (widthBytes w) (s.getReg value)
          pc := s.pc + 4 }) := by
  unfold storeFrom at h
  rcases store_cases s (effAddr s base imm16) (widthBytes w) (s.getReg value) with
    ⟨_, hl⟩ | ⟨_, hm, hl⟩ | ⟨_, _, _, hl⟩ | ⟨hb, _, hr, hl⟩ <;> rw [hl] at h
  · exact .inl ⟨_, .inl rfl, raise_eq_next.mp h⟩
  · refine .inl ⟨_, .inr (.inl ⟨rfl, ?_⟩), raise_eq_next.mp h⟩
    rintro rfl
    exact hm (Nat.mod_one _)
  · exact .inl ⟨_, .inr (.inr rfl), raise_eq_next.mp h⟩
  · exact .inr ⟨⟨hb.2, hr⟩, advance_eq_next.mp h⟩

/-- Everything an extension call can do (R211, R212). -/
theorem callExtension_cases {rd : Reg} {id input : Word} {s t : State} (h : callExtension rd id input s = .next t) :
    (∃ e, (e = .extmiss ∨ e = .exterr) ∧ t = { s with exc := Exc.code e }) ∨
      t = { s.setReg rd (checkExtAnswer s.launch input) with pc := s.pc + 4 } ∨
      ∃ v ws, t = { s.setReg rd v with
        mem := extWrites s.launch ws s.mem, draws := s.draws + 1, pc := s.pc + 4 } := by
  unfold callExtension at h
  split at h
  · exact .inl ⟨_, .inl rfl, raise_eq_next.mp h⟩
  · split at h
    · exact .inr (.inl (writeAndAdvance_eq_next.mp h))
    · unfold callHandler at h
      split at h
      · exact .inl ⟨_, .inr rfl, raise_eq_next.mp h⟩
      · exact .inr (.inr ⟨_, _, writeAndAdvance_eq_next.mp h⟩)

/-! The step. -/

/-- Everything a step that answers a next state does (R241). -/
theorem step_cases {s t : State} (h : step s = .next t) :
    s.exc = 0 ∧ s.launch.wellFormed = true ∧
      ((∃ e, fetch s = .error e ∧ (e = .pcbounds ∨ e = .pcalign ∨ e = .pcexec) ∧ t = { s with exc := e.code }) ∨
        ∃ w, fetch s = .ok w ∧ exec (decode w) s = .next t) := by
  unfold step at h
  split at h
  · cases h
  · rename_i hx
    split at h
    · cases h
    · rename_i hw
      refine ⟨by simpa using hx, by simpa using hw, ?_⟩
      rcases fetch_cases s with ⟨_, hf⟩ | ⟨_, _, hf⟩ | ⟨_, _, _, hf⟩ | ⟨_, _, _, hf⟩ <;> rw [hf] at h
      · exact .inl ⟨_, hf, by simp, raise_eq_next.mp h⟩
      · exact .inl ⟨_, hf, by simp, raise_eq_next.mp h⟩
      · exact .inl ⟨_, hf, by simp, raise_eq_next.mp h⟩
      · exact .inr ⟨_, hf, h⟩

end Sys2Proof.Machine
end

