-- ==== Sys2Proof/Laws/PerInstr.lean ====
section
/-! SUPPORT. Laws stated of every instruction, one lemma per constructor of `Instr`. -/

namespace Sys2Proof.Laws.EncodeOpcode

/-- The opcode field of an instruction's word decides the instruction's constructor: the opcode map, asked about that opcode and
the instruction's own operands, gives the instruction (30_encoding.md R75, R81). -/
def Statement (i : Instr) : Prop :=
  i.wellFormed = true →
    ∃ rd rs1 rs2 imm16 rest, instrOf (opcodeOf (encode i)) rd rs1 rs2 imm16 rest = i

/-- An opcode that is not assigned is mapped to `invalid` (R77, R78). -/
theorem instrOf_unassigned (op : BitVec 7) (rest : BitVec 25) (h : assignedOpcodes.contains op = false) :
    instrOf op .Z .Z .Z 0 rest = .invalid op rest := by
  unfold instrOf
  split <;> first | rfl | exact absurd h (by decide)

/-- The case of an instruction whose word is packed from an opcode and operands that the opcode map gives back. It takes terms, so that no
case below has a tactic block of its own: dozens of them would wait at once for the equations of `encode`. -/
theorem of_pack {i : Instr} {op : BitVec 7} {rd rs1 rs2 : Reg} {imm16 : BitVec 16} (he : encode i = pack op rd rs1 rs2 imm16)
    (hi : instrOf op rd rs1 rs2 imm16 0 = i) : Statement i := fun _ =>
  ⟨rd, rs1, rs2, imm16, 0, by rw [he, opcodeOf_pack, hi]⟩

theorem invalid (opcode : BitVec 7) (rest : BitVec 25) : Statement (.invalid opcode rest) := fun h =>
  ⟨.Z, .Z, .Z, 0, rest, by
    rw [encode, opcodeOf_append]
    exact instrOf_unassigned _ _ (by simpa [Instr.wellFormed] using h)⟩

theorem and (rd rs1 rs2 : Reg) : Statement (.and rd rs1 rs2) := of_pack rfl rfl

theorem or (rd rs1 rs2 : Reg) : Statement (.or rd rs1 rs2) := of_pack rfl rfl

theorem xor (rd rs1 rs2 : Reg) : Statement (.xor rd rs1 rs2) := of_pack rfl rfl

theorem sub (rd rs1 rs2 : Reg) : Statement (.sub rd rs1 rs2) := of_pack rfl rfl

theorem min (rd rs1 rs2 : Reg) : Statement (.min rd rs1 rs2) := of_pack rfl rfl

theorem minu (rd rs1 rs2 : Reg) : Statement (.minu rd rs1 rs2) := of_pack rfl rfl

theorem max (rd rs1 rs2 : Reg) : Statement (.max rd rs1 rs2) := of_pack rfl rfl

theorem maxu (rd rs1 rs2 : Reg) : Statement (.maxu rd rs1 rs2) := of_pack rfl rfl

theorem slt (rd rs1 rs2 : Reg) : Statement (.slt rd rs1 rs2) := of_pack rfl rfl

theorem sltu (rd rs1 rs2 : Reg) : Statement (.sltu rd rs1 rs2) := of_pack rfl rfl

theorem mul (rd rs1 rs2 : Reg) : Statement (.mul rd rs1 rs2) := of_pack rfl rfl

theorem mulh (rd rs1 rs2 : Reg) : Statement (.mulh rd rs1 rs2) := of_pack rfl rfl

theorem mulhu (rd rs1 rs2 : Reg) : Statement (.mulhu rd rs1 rs2) := of_pack rfl rfl

theorem mulhsu (rd rs1 rs2 : Reg) : Statement (.mulhsu rd rs1 rs2) := of_pack rfl rfl

theorem div (rd rs1 rs2 : Reg) : Statement (.div rd rs1 rs2) := of_pack rfl rfl

theorem divu (rd rs1 rs2 : Reg) : Statement (.divu rd rs1 rs2) := of_pack rfl rfl

theorem rem (rd rs1 rs2 : Reg) : Statement (.rem rd rs1 rs2) := of_pack rfl rfl

theorem remu (rd rs1 rs2 : Reg) : Statement (.remu rd rs1 rs2) := of_pack rfl rfl

theorem revb (rd rs1 : Reg) : Statement (.revb rd rs1) := of_pack rfl rfl

theorem revh (rd rs1 : Reg) : Statement (.revh rd rs1) := of_pack rfl rfl

theorem clz (rd rs1 : Reg) : Statement (.clz rd rs1) := of_pack rfl rfl

theorem ctz (rd rs1 : Reg) : Statement (.ctz rd rs1) := of_pack rfl rfl

theorem pcnt (rd rs1 : Reg) : Statement (.pcnt rd rs1) := of_pack rfl rfl

theorem ebreak : Statement (.ebreak) := of_pack rfl rfl

theorem andi (rd rs1 : Reg) (imm16 : BitVec 16) : Statement (.andi rd rs1 imm16) := of_pack rfl rfl

theorem ori (rd rs1 : Reg) (imm16 : BitVec 16) : Statement (.ori rd rs1 imm16) := of_pack rfl rfl

theorem xori (rd rs1 : Reg) (imm16 : BitVec 16) : Statement (.xori rd rs1 imm16) := of_pack rfl rfl

theorem sll (rd rs1 rs2 : Reg) (imm16 : BitVec 16) : Statement (.sll rd rs1 rs2 imm16) := of_pack rfl rfl

theorem srl (rd rs1 rs2 : Reg) (imm16 : BitVec 16) : Statement (.srl rd rs1 rs2 imm16) := of_pack rfl rfl

theorem sra (rd rs1 rs2 : Reg) (imm16 : BitVec 16) : Statement (.sra rd rs1 rs2 imm16) := of_pack rfl rfl

theorem add (rd rs1 rs2 : Reg) (imm16 : BitVec 16) : Statement (.add rd rs1 rs2 imm16) := of_pack rfl rfl

theorem slti (rd rs1 : Reg) (imm16 : BitVec 16) : Statement (.slti rd rs1 imm16) := of_pack rfl rfl

theorem sltiu (rd rs1 : Reg) (imm16 : BitVec 16) : Statement (.sltiu rd rs1 imm16) := of_pack rfl rfl

theorem lui (rd : Reg) (imm16 : BitVec 16) : Statement (.lui rd imm16) := of_pack rfl rfl

theorem auipc (rd : Reg) (imm16 : BitVec 16) : Statement (.auipc rd imm16) := of_pack rfl rfl

theorem lb (rd rs1 : Reg) (imm16 : BitVec 16) : Statement (.lb rd rs1 imm16) := of_pack rfl rfl

theorem lbu (rd rs1 : Reg) (imm16 : BitVec 16) : Statement (.lbu rd rs1 imm16) := of_pack rfl rfl

theorem lh (rd rs1 : Reg) (imm16 : BitVec 16) : Statement (.lh rd rs1 imm16) := of_pack rfl rfl

theorem lhu (rd rs1 : Reg) (imm16 : BitVec 16) : Statement (.lhu rd rs1 imm16) := of_pack rfl rfl

theorem lw (rd rs1 : Reg) (imm16 : BitVec 16) : Statement (.lw rd rs1 imm16) := of_pack rfl rfl

theorem sb (rs1 rs2 : Reg) (imm16 : BitVec 16) : Statement (.sb rs1 rs2 imm16) := of_pack rfl rfl

theorem sh (rs1 rs2 : Reg) (imm16 : BitVec 16) : Statement (.sh rs1 rs2 imm16) := of_pack rfl rfl

theorem sw (rs1 rs2 : Reg) (imm16 : BitVec 16) : Statement (.sw rs1 rs2 imm16) := of_pack rfl rfl

theorem jal (rd : Reg) (imm16 : BitVec 16) : Statement (.jal rd imm16) := of_pack rfl rfl

theorem jalr (rd rs1 : Reg) (imm16 : BitVec 16) : Statement (.jalr rd rs1 imm16) := of_pack rfl rfl

theorem beq (rs1 rs2 : Reg) (imm16 : BitVec 16) : Statement (.beq rs1 rs2 imm16) := of_pack rfl rfl

theorem bne (rs1 rs2 : Reg) (imm16 : BitVec 16) : Statement (.bne rs1 rs2 imm16) := of_pack rfl rfl

theorem blt (rs1 rs2 : Reg) (imm16 : BitVec 16) : Statement (.blt rs1 rs2 imm16) := of_pack rfl rfl

theorem bltu (rs1 rs2 : Reg) (imm16 : BitVec 16) : Statement (.bltu rs1 rs2 imm16) := of_pack rfl rfl

theorem bge (rs1 rs2 : Reg) (imm16 : BitVec 16) : Statement (.bge rs1 rs2 imm16) := of_pack rfl rfl

theorem bgeu (rs1 rs2 : Reg) (imm16 : BitVec 16) : Statement (.bgeu rs1 rs2 imm16) := of_pack rfl rfl

theorem ecall (rd rs1 rs2 : Reg) (imm16 : BitVec 16) : Statement (.ecall rd rs1 rs2 imm16) := of_pack rfl rfl

end Sys2Proof.Laws.EncodeOpcode
end

