-- ==== Sys2Proof/Laws/Run.lean ====
section
/-! SUPPORT. Runs of several steps: one lemma for each thing the first step of a run can do. -/

namespace Sys2Proof.Machine

/-- A run of any machine whose first step answers a next state goes on from that state. -/
theorem hostRun_succ_of_next (M : Host.Core) {s u : M.State} (h : M.step s = .next u) (k : Nat) :
    M.run (k + 1) s = M.run k u := by
  rw [Host.Core.run, h]

/-- A run of any machine whose first step faults is that fault. -/
theorem hostRun_succ_of_fault (M : Host.Core) {s : M.State} {r : M.Fault} (h : M.step s = .fault r) (k : Nat) :
    M.run (k + 1) s = .fault r := by
  rw [Host.Core.run, h]

/-- A longer run of any machine that answers a next state is a first step and a run from there. -/
theorem hostRun_succ_eq_next (M : Host.Core) {s t : M.State} {k : Nat} :
    M.run (k + 1) s = .next t ↔ ∃ u, M.step s = .next u ∧ M.run k u = .next t := by
  rw [Host.Core.run]
  cases M.step s <;> simp

theorem run_zero (s : State) : Host.Core.run Sys2Proof.core 0 s = .next s := rfl

theorem run_succ_of_next {s u : State} (h : step s = .next u) (k : Nat) :
    Host.Core.run Sys2Proof.core (k + 1) s = Host.Core.run Sys2Proof.core k u :=
  hostRun_succ_of_next Sys2Proof.core h k

theorem run_succ_of_fault {s : State} {r : Fault} (h : step s = .fault r) (k : Nat) :
    Host.Core.run Sys2Proof.core (k + 1) s = .fault r :=
  hostRun_succ_of_fault Sys2Proof.core h k

theorem run_succ_eq_next {s t : State} {k : Nat} :
    Host.Core.run Sys2Proof.core (k + 1) s = .next t ↔
      ∃ u, step s = .next u ∧ Host.Core.run Sys2Proof.core k u = .next t :=
  hostRun_succ_eq_next Sys2Proof.core

end Sys2Proof.Machine
end

