-- ==== Sys2Proof/Tests/Slice0.lean ====
section
/-! SUPPORT. The model's own tests. Words and results are those of 95_test_vectors.md, or read off the rule named; the second half
gives, for every statement with hypotheses, a state and operands that meet them. -/

namespace Sys2Proof.Tests

open Sys2Proof.Machine

/-! ## A small machine: the standard configuration of 95_test_vectors.md -/

def launch : Launch :=
  { memLen := 0x100, textStart := 0x00, textEnd := 0x40, readOnlyRanges := [(0x40, 0x50)], extensions := [],
    checkExtYes := 1, checkExtNo := 0 }

/-- Bytes 0x80 to 0x87: 67 45 ab 89 80 7f ff 00. -/
def memory : Memory :=
  [(0x80, 0x67), (0x81, 0x45), (0x82, 0xab), (0x83, 0x89), (0x84, 0x80), (0x85, 0x7f), (0x86, 0xff)]

/-- The registers A, B, C as given, the others 0. -/
def registers (a b c : Word) : RegFile := { A := a, B := b, C := c, R := 0, S := 0, X := 0, Y := 0 }

/-- The machine about to run the word `w` at `pc`. -/
def ready (pc w a b c : Word) : State :=
  State.start launch (memWrite memory pc.toNat 4 w) pc (registers a b c)

/-- The same with another configuration. -/
def readyIn (l : Launch) (pc w a b c : Word) : State :=
  State.start l (memWrite memory pc.toNat 4 w) pc (registers a b c)

/-- The value of `f` in the next state, where there is one. -/
def after {α : Type} (f : State → α) : Host.Outcome State Fault Refusal → Option α
  | .next t => some (f t)
  | .fault _ => none
  | .refused _ => none

/-- The register, the pc and the exception status after one step. -/
def stepOn (r : Reg) (s : State) : Option (Word × Word × BitVec 7) := after (fun t => (t.getReg r, t.pc, t.exc)) (step s)

/-- The bytes 0x80 to 0x87, the pc and the exception status after one step. -/
def stepMem (s : State) : Option (List Byte × Word × BitVec 7) :=
  after (fun t => ((List.range 8).map fun k => t.mem.read (0x80 + k), t.pc, t.exc)) (step s)

/-! ## What the well-formedness checks refuse -/

theorem test_wf_refuses_invalid_with_an_assigned_opcode : (Instr.invalid 0x04 0).wellFormed = false := by decide
theorem test_wf_admits_invalid_with_an_unassigned_opcode : (Instr.invalid 0x47 0).wellFormed = true := by decide
theorem test_wf_refuses_too_much_memory : ({ launch with memLen := 0x80000001 } : Launch).wellFormed = false := by decide
theorem test_wf_refuses_a_reversed_text_segment :
    ({ launch with textStart := 0x44 } : Launch).wellFormed = false := by decide
theorem test_wf_refuses_text_outside_memory : ({ launch with textEnd := 0x104 } : Launch).wellFormed = false := by decide
theorem test_wf_refuses_equal_check_ext_answers :
    ({ launch with checkExtNo := 1 } : Launch).wellFormed = false := by decide
theorem test_wf_admits_the_standard_configuration : launch.wellFormed = true := by decide
theorem test_wf_admits_all_of_memory :
    ({ launch with memLen := 0x80000000, textEnd := 0x80000000 } : Launch).wellFormed = true := by decide

/-! ## Decoding: words written out as `imm16_rs2_rs1_rd_opcode` (30_encoding.md R71, R75) -/

theorem test_decode_logic_compare :
    decode 0b0000000000000000_010_001_011_0000100 = .and .C .A .B ∧
    decode 0b0000000000000000_010_001_011_0000101 = .or .C .A .B ∧
    decode 0b0000000000000000_010_001_011_0000110 = .xor .C .A .B ∧
    decode 0b0000000000000000_010_001_011_0000111 = .sub .C .A .B ∧
    decode 0b0000000000000000_010_001_011_0001000 = .min .C .A .B ∧
    decode 0b0000000000000000_010_001_011_0001001 = .minu .C .A .B ∧
    decode 0b0000000000000000_010_001_011_0001010 = .max .C .A .B ∧
    decode 0b0000000000000000_010_001_011_0001011 = .maxu .C .A .B ∧
    decode 0b0000000000000000_010_001_011_0001100 = .slt .C .A .B ∧
    decode 0b0000000000000000_010_001_011_0001101 = .sltu .C .A .B := by decide

theorem test_decode_muldiv :
    decode 0b0000000000000000_111_101_110_0010000 = .mul .X .S .Y ∧
    decode 0b0000000000000000_111_101_110_0010001 = .mulh .X .S .Y ∧
    decode 0b0000000000000000_111_101_110_0010010 = .mulhu .X .S .Y ∧
    decode 0b0000000000000000_111_101_110_0010011 = .mulhsu .X .S .Y ∧
    decode 0b0000000000000000_111_101_110_0010100 = .div .X .S .Y ∧
    decode 0b0000000000000000_111_101_110_0010101 = .divu .X .S .Y ∧
    decode 0b0000000000000000_111_101_110_0010110 = .rem .X .S .Y ∧
    decode 0b0000000000000000_111_101_110_0010111 = .remu .X .S .Y := by decide

theorem test_decode_bitmanip :
    decode 0b0000000000000000_000_001_011_0011000 = .revb .C .A ∧
    decode 0b0000000000000000_000_001_011_0011001 = .revh .C .A ∧
    decode 0b0000000000000000_000_001_011_0011010 = .clz .C .A ∧
    decode 0b0000000000000000_000_001_011_0011011 = .ctz .C .A ∧
    decode 0b0000000000000000_000_001_011_0011100 = .pcnt .C .A := by decide

theorem test_decode_immediate_alu :
    decode 0b0000000011111111_000_001_011_1000100 = .andi .C .A 255 ∧
    decode 0b0000000011111111_000_001_011_1000101 = .ori .C .A 255 ∧
    decode 0b0000000011111111_000_001_011_1000110 = .xori .C .A 255 ∧
    decode 0b0000000000000011_010_001_011_1001000 = .sll .C .A .B 3 ∧
    decode 0b0000000000000011_010_001_011_1001001 = .srl .C .A .B 3 ∧
    decode 0b0000000000000011_010_001_011_1001010 = .sra .C .A .B 3 ∧
    decode 0b1111111111111111_010_001_011_1001011 = .add .C .A .B 0xffff ∧
    decode 0b1111111111111111_000_001_011_1001100 = .slti .C .A 0xffff ∧
    decode 0b1111111111111111_000_001_011_1001101 = .sltiu .C .A 0xffff ∧
    decode 0b0001001000110100_000_000_011_1001110 = .lui .C 0x1234 ∧
    decode 0b0001001000110100_000_000_011_1001111 = .auipc .C 0x1234 := by decide

theorem test_decode_load_store :
    decode 0b0000000000001000_000_001_011_1010000 = .lb .C .A 8 ∧
    decode 0b0000000000001000_000_001_011_1010001 = .lbu .C .A 8 ∧
    decode 0b0000000000001000_000_001_011_1010010 = .lh .C .A 8 ∧
    decode 0b0000000000001000_000_001_011_1010011 = .lhu .C .A 8 ∧
    decode 0b0000000000001000_000_001_011_1010100 = .lw .C .A 8 ∧
    decode 0b0000000000001000_010_001_000_1010101 = .sb .A .B 8 ∧
    decode 0b0000000000001000_010_001_000_1010110 = .sh .A .B 8 ∧
    decode 0b0000000000001000_010_001_000_1010111 = .sw .A .B 8 := by decide

theorem test_decode_control :
    decode 0b0000000000001100_000_000_100_1011000 = .jal .R 12 ∧
    decode 0b0000000000000000_000_100_000_1011001 = .jalr .Z .R 0 ∧
    decode 0b0000000000010000_010_001_000_1011010 = .beq .A .B 16 ∧
    decode 0b1111111111111000_000_010_000_1011011 = .bne .B .Z 0xfff8 ∧
    decode 0b0000000000010000_010_001_000_1011100 = .blt .A .B 16 ∧
    decode 0b0000000000010000_010_001_000_1011101 = .bltu .A .B 16 ∧
    decode 0b0000000000010000_010_001_000_1011110 = .bge .A .B 16 ∧
    decode 0b0000000000010000_010_001_000_1011111 = .bgeu .A .B 16 := by decide

theorem test_decode_system :
    decode 0b0000000000000000_000_000_000_0111111 = .ebreak ∧
    decode 0b0000000000000011_000_001_010_1111111 = .ecall .B .A .Z 3 ∧
    decode 0b0000000000000000_000_000_000_0000000 = .invalid 0x00 0 ∧
    decode 0b1111111111111111_111_111_111_0000000 = .invalid 0x00 0x1ffffff ∧
    decode 0b0000000000000000_000_000_000_1000111 = .invalid 0x47 0 := by decide

/-- R79: fields that are not used are ignored. -/
theorem test_decode_ignores_unused_fields :
    decode 0xffff4784 = .and .Y .A .B ∧ decode 0x0000e3bf = .ebreak := by decide

/-- R44, R71: `add C, A, B, -1` lies in memory as cb 45 ff ff. -/
theorem test_decode_bytes :
    decodeBytes [0xcb, 0x45, 0xff, 0xff] = .ok (.add .C .A .B 0xffff, []) ∧
      encodeBytes (.add .C .A .B 0xffff) = [0xcb, 0x45, 0xff, 0xff] := ⟨rfl, rfl⟩
theorem test_decode_bytes_refuses_a_truncated_word : decodeBytes [0xcb, 0x45, 0xff] = .error .truncated := rfl
theorem test_decode_table_word :
    decodeTableWord 32 0xffff45cb = some (.add .C .A .B 0xffff) ∧ decodeTableWord 32 0 = some (.invalid 0 0) := by decide

/-! ## One step of each instruction (95_test_vectors.md sections 2.1 to 2.7) -/

theorem test_and : stepOn .C (ready 0 0x00004584 0x12345678 0x0f0f0f0f 0) = some (0x02040608, 4, 0) := by decide
theorem test_or : stepOn .C (ready 0 0x00004585 0x12345678 0x0f0f0f0f 0) = some (0x1f3f5f7f, 4, 0) := by decide
theorem test_xor : stepOn .C (ready 0 0x00004586 0x12345678 0x0f0f0f0f 0) = some (0x1d3b5977, 4, 0) := by decide
theorem test_sub_wraps : stepOn .C (ready 0 0x00004587 0 0x80000000 0) = some (0x80000000, 4, 0) := by decide
theorem test_sub_source_is_destination : stepOn .A (ready 0 0x00002887 3 0xa 0) = some (7, 4, 0) := by decide
theorem test_sub_to_Z : stepOn .Z (ready 0 0x00004407 9 4 0) = some (0, 4, 0) := by decide
theorem test_min : stepOn .C (ready 0 0x00004588 1 0xffffffff 0) = some (0xffffffff, 4, 0) := by decide
theorem test_minu : stepOn .C (ready 0 0x00004589 1 0xffffffff 0) = some (1, 4, 0) := by decide
theorem test_max : stepOn .C (ready 0 0x0000458a 1 0xffffffff 0) = some (1, 4, 0) := by decide
theorem test_maxu : stepOn .C (ready 0 0x0000458b 1 0xffffffff 0) = some (0xffffffff, 4, 0) := by decide
theorem test_slt : stepOn .C (ready 0 0x0000458c 0x80000000 0x7fffffff 7) = some (1, 4, 0) := by decide
theorem test_sltu : stepOn .C (ready 0 0x0000458d 0x80000000 0x7fffffff 7) = some (0, 4, 0) := by decide

theorem test_mul : stepOn .C (ready 0 0x00004590 0x12345678 0x9abcdef0 0) = some (0x242d2080, 4, 0) := by decide
theorem test_mulh : stepOn .C (ready 0 0x00004591 0x12345678 0x9abcdef0 0) = some (0xf8cc93d6, 4, 0) := by decide
theorem test_mulhu : stepOn .C (ready 0 0x00004592 0x12345678 0x9abcdef0 0) = some (0x0b00ea4e, 4, 0) := by decide
theorem test_mulhsu : stepOn .C (ready 0 0x00004593 0xfffffff9 0xfffffffd 0) = some (0xfffffff9, 4, 0) := by decide
theorem test_div_rounds_toward_zero : stepOn .C (ready 0 0x00004594 0xfffffff9 3 0) = some (0xfffffffe, 4, 0) := by decide
theorem test_div_overflow : stepOn .C (ready 0 0x00004594 0x80000000 0xffffffff 0) = some (0x80000000, 4, 0) := by decide
theorem test_divu : stepOn .C (ready 0 0x00004595 0xfffffff9 3 0) = some (0x55555553, 4, 0) := by decide
theorem test_divu_by_zero : stepOn .C (ready 0 0x00004595 5 0 7) = some (0, 4, 0) := by decide
theorem test_rem_has_the_sign_of_the_dividend :
    stepOn .C (ready 0 0x00004596 0xfffffff9 0xfffffffd 0) = some (0xffffffff, 4, 0) := by decide
theorem test_rem_by_zero : stepOn .C (ready 0 0x00004596 5 0 7) = some (0, 4, 0) := by decide
theorem test_remu : stepOn .C (ready 0 0x00004597 0x80000000 0x7fffffff 0) = some (1, 4, 0) := by decide
theorem test_remu_by_zero : stepOn .C (ready 0 0x00004597 5 0 7) = some (0, 4, 0) := by decide

theorem test_revb : stepOn .C (ready 0 0x00000598 0x89ab4567 0 0) = some (0x6745ab89, 4, 0) := by decide
theorem test_revh : stepOn .C (ready 0 0x00000599 0x89ab4567 0 0) = some (0x456789ab, 4, 0) := by decide
theorem test_clz : stepOn .C (ready 0 0x0000059a 0x00000a9c 0 0) = some (20, 4, 0) := by decide
theorem test_clz_of_zero : stepOn .C (ready 0 0x0000059a 0 0 0) = some (32, 4, 0) := by decide
theorem test_ctz : stepOn .C (ready 0 0x0000059b 0x00000a9c 0 0) = some (2, 4, 0) := by decide
theorem test_ctz_of_zero : stepOn .C (ready 0 0x0000059b 0 0 0) = some (32, 4, 0) := by decide
theorem test_pcnt : stepOn .C (ready 0 0x0000059c 0x00000a9c 0 0) = some (6, 4, 0) := by decide

theorem test_andi : stepOn .C (ready 0 0x800005c4 0x89ab4567 0 0) = some (0x89ab0000, 4, 0) := by decide
theorem test_ori : stepOn .C (ready 0 0x800005c5 0x89ab4567 0 0) = some (0xffffc567, 4, 0) := by decide
theorem test_xori : stepOn .C (ready 0 0x800005c6 0x89ab4567 0 0) = some (0x7654c567, 4, 0) := by decide
theorem test_sll_two_amounts : stepOn .C (ready 0 0x000445c8 0x89ab4567 4 0) = some (0xab456700, 4, 0) := by decide
theorem test_sll_masks_each_amount : stepOn .C (ready 0 0x000045c8 0x89ab4567 0x25 0) = some (0x3568ace0, 4, 0) := by decide
theorem test_srl_two_amounts : stepOn .C (ready 0 0x000445c9 0x89ab4567 4 0) = some (0x0089ab45, 4, 0) := by decide
theorem test_srl_sum_is_not_masked : stepOn .C (ready 0 0x001045c9 0x89ab4567 16 0) = some (0, 4, 0) := by decide
theorem test_sra_two_amounts : stepOn .C (ready 0 0x000445ca 0x89ab4567 4 0) = some (0xff89ab45, 4, 0) := by decide
theorem test_sra_sum_is_not_masked : stepOn .C (ready 0 0x001045ca 0x89ab4567 16 0) = some (0xffffffff, 4, 0) := by decide
theorem test_add_three_addends : stepOn .C (ready 0 0xfff045cb 0x12345678 0x11111111 0) = some (0x23456779, 4, 0) := by decide
theorem test_slti : stepOn .C (ready 0 0xffff05cc 0 0 7) = some (0, 4, 0) := by decide
theorem test_sltiu : stepOn .C (ready 0 0xffff05cd 0 0 7) = some (1, 4, 0) := by decide
theorem test_lui : stepOn .C (ready 0 0x800001ce 0 0 0) = some (0x80000000, 4, 0) := by decide
theorem test_auipc : stepOn .C (ready 0x20 0x123401cf 0 0 0) = some (0x12340020, 0x24, 0) := by decide

theorem test_lb : stepOn .C (ready 0 0x000305d0 0x80 0 0) = some (0xffffff89, 4, 0) := by decide
theorem test_lb_out_of_bounds : stepOn .C (ready 0 0x010005d0 0 0 7) = some (7, 0, 0x08) := by decide
theorem test_lbu : stepOn .C (ready 0 0x000305d1 0x80 0 0) = some (0x89, 4, 0) := by decide
theorem test_lbu_at_a_negative_address : stepOn .C (ready 0 0xffff05d1 0 0 7) = some (7, 0, 0x08) := by decide
theorem test_lh : stepOn .C (ready 0 0x000205d2 0x80 0 0) = some (0xffff89ab, 4, 0) := by decide
theorem test_lh_misaligned : stepOn .C (ready 0 0x000305d2 0x80 0 7) = some (7, 0, 0x05) := by decide
theorem test_lhu : stepOn .C (ready 0 0x000205d3 0x80 0 0) = some (0x89ab, 4, 0) := by decide
theorem test_lhu_out_of_bounds_first : stepOn .C (ready 0 0x00ff05d3 0 0 7) = some (7, 0, 0x08) := by decide
theorem test_lw : stepOn .C (ready 0 0xfff805d4 0x88 0 0) = some (0x89ab4567, 4, 0) := by decide
theorem test_lw_address_wraps : stepOn .C (ready 0 0x000405d4 0xfffffffc 0 0) = some (0x000405d4, 4, 0) := by decide

theorem test_sb :
    stepMem (ready 0 0x00014455 0x11223344 0x80 0) = some ([0x67, 0x44, 0xab, 0x89, 0x80, 0x7f, 0xff, 0x00], 4, 0) := by decide
theorem test_sb_read_only :
    stepMem (ready 0 0x004f4455 0x11223344 0 0) = some ([0x67, 0x45, 0xab, 0x89, 0x80, 0x7f, 0xff, 0x00], 0, 0x0b) := by decide
theorem test_sh :
    stepMem (ready 0 0x00064456 0x11223344 0x80 0) = some ([0x67, 0x45, 0xab, 0x89, 0x80, 0x7f, 0x44, 0x33], 4, 0) := by decide
theorem test_sh_misaligned_before_read_only :
    stepMem (ready 0 0x004f4456 0x11223344 0 0) = some ([0x67, 0x45, 0xab, 0x89, 0x80, 0x7f, 0xff, 0x00], 0, 0x06) := by decide
theorem test_sw :
    stepMem (ready 0 0x00044457 0x11223344 0x80 0) = some ([0x67, 0x45, 0xab, 0x89, 0x44, 0x33, 0x22, 0x11], 4, 0) := by decide
theorem test_sw_out_of_bounds_first :
    stepMem (ready 0 0x00fd4457 0x11223344 0 0) = some ([0x67, 0x45, 0xab, 0x89, 0x80, 0x7f, 0xff, 0x00], 0, 0x09) := by decide

theorem test_jal : stepOn .R (ready 8 0x000c0258 0 0 0) = some (0xc, 0x14, 0) := by decide
theorem test_jal_bad_target_completes : stepOn .R (ready 8 0xfff60258 0 0 0) = some (0xc, 0xfffffffe, 0) := by decide
theorem test_jalr : stepOn .A (ready 0x20 0xfffc08d9 0 0x10 0) = some (0x24, 0xc, 0) := by decide
theorem test_jalr_reads_before_it_links : stepOn .B (ready 0x20 0x00000959 0 0xc 0) = some (0x24, 0xc, 0) := by decide
theorem test_beq : stepOn .A (ready 8 0x0010445a 5 5 0) = some (5, 0x18, 0) := by decide
theorem test_beq_not_taken : stepOn .A (ready 8 0x0010445a 5 7 0) = some (5, 0xc, 0) := by decide
theorem test_bne : stepOn .A (ready 8 0x0010445b 5 7 0) = some (5, 0x18, 0) := by decide
theorem test_blt : stepOn .B (ready 8 0x0010445c 0xffffffff 1 0) = some (1, 0x18, 0) := by decide
theorem test_bltu : stepOn .B (ready 8 0x0010445d 0xffffffff 1 0) = some (1, 0xc, 0) := by decide
theorem test_bge : stepOn .B (ready 8 0x0010445e 0xffffffff 1 0) = some (1, 0xc, 0) := by decide
theorem test_bge_of_equals : stepOn .B (ready 8 0x0010445e 1 1 0) = some (1, 0x18, 0) := by decide
theorem test_bgeu : stepOn .B (ready 8 0x0010445f 0xffffffff 1 0) = some (1, 0x18, 0) := by decide

theorem test_ebreak : stepOn .A (ready 0 0x0000003f 5 0 0) = some (5, 4, 0) := by decide
theorem test_ecall_check_ext : stepOn .B (ready 0 0xffff657f 3 7 4) = some (1, 4, 0) := by decide
theorem test_ecall_unsupported : stepOn .R (ready 0 0x0009027f 0 0 0) = some (0, 0, 0x0e) := by decide
theorem test_invalid : stepOn .A (ready 0x14 0xffffff80 5 0 0) = some (5, 0x14, 0x03) := by decide
theorem test_unassigned : stepOn .A (ready 0x14 0x00000047 5 0 0) = some (5, 0x14, 0x03) := by decide

/-! ## The fetch (20_memory.md R51; 95_test_vectors.md 2.6) and the word placed at the pc -/

/-- The exception status after one step at `pc`, where the word is a no-op. -/
def fetchAt (pc : Word) : Option (BitVec 7) := after State.exc (step (ready pc 0x0000004b 0 0 0))

theorem test_fetch_last_word_of_text : fetchAt 0x3c = some 0 := by decide
theorem test_fetch_outside_text : fetchAt 0x40 = some 0x04 := by decide
theorem test_fetch_misaligned_before_outside_text : fetchAt 0x42 = some 0x07 := by decide
theorem test_fetch_last_word_of_memory : fetchAt 0xfc = some 0x04 := by decide
theorem test_fetch_out_of_bounds_before_misaligned : fetchAt 0xfd = some 0x0a := by decide
theorem test_fetch_at_a_negative_address : fetchAt 0xfffffffc = some 0x0a := by decide

theorem test_first_step_after_reset_with_a_word_placed :
    stepOn .C (State.reset.withFetchWord 32 0xffff45cb) = some (0xffffffff, 4, 0) := by decide
theorem test_reset_has_no_program : after State.exc (step State.reset) = some 0x04 := by decide

/-! ## Witnesses: a state and operands that meet the hypotheses of each statement -/

/-- `add A, Z, Z, 1` at 0x3c. -/
def adding : State := ready 0x3c 0x000100cb 0 0 0
/-- The invalid word at 0. -/
def failing : State := ready 0 0 0 0 0
/-- `sw A, B, 0` to 0x80. -/
def storing : State := ready 0 0x00004457 0x11223344 0x80 0

theorem test_hyp_DecodeOfEncodeIsTheInstruction :
    (Instr.invalid 0x60 0x1ffffff).wellFormed = true ∧ (Instr.ecall .Y .Y .Y 0xffff).wellFormed = true := by decide

theorem test_hyp_RegistersHoldWhatIsWritten : Reg.A ≠ .Z ∧ Reg.B ≠ Reg.A := by decide

theorem test_hyp_MemReadAfterMemWrite : (3 : Nat) < widthBytes .word ∧ (0x7f : Nat) < 0x80 ∧ 0x80 + widthBytes .word ≤ 0x84 := by
  decide

/-- The same two bytes, written in both orders. -/
theorem test_hyp_CanonicalMemoriesThatReadAlikeAreEqual :
    let m : Memory := Memory.write (Memory.write [] 1 0x11) 2 0x22
    let m' : Memory := Memory.write (Memory.write [] 2 0x22) 1 0x11
    m.wf = true ∧ m'.wf = true ∧ ∀ a, m.read a = m'.read a := ⟨rfl, rfl, fun _ => rfl⟩

theorem test_hyp_StepRunsTheDecodedInstruction :
    adding.exc = 0 ∧ adding.launch.wellFormed = true ∧ adding.pc.toNat % 4 = 0 ∧
      adding.launch.textStart ≤ adding.pc.toNat ∧ adding.pc.toNat + 4 ≤ adding.launch.textEnd ∧
      decodeBytes [adding.mem.read adding.pc.toNat, adding.mem.read (adding.pc.toNat + 1),
        adding.mem.read (adding.pc.toNat + 2), adding.mem.read (adding.pc.toNat + 3)] = .ok (.add .A .Z .Z 1, []) ∧
      (Instr.add .A .Z .Z 1).wellFormed = true := ⟨rfl, rfl, rfl, by decide, by decide, rfl, rfl⟩

/-- One pc for each clause, each at its boundary: 0xfd, 0xfa, 0x40. -/
theorem test_hyp_FetchChecksRaise :
    (ready 0xfd 0 0 0 0).exc = 0 ∧ launch.wellFormed = true ∧ launch.memLen < 0xfd + 4 ∧
      (0xfa + 4 ≤ launch.memLen ∧ 0xfa % 4 ≠ 0) ∧
      (0x40 + 4 ≤ launch.memLen ∧ 0x40 % 4 = 0 ∧ (0x40 < launch.textStart ∨ launch.textEnd < 0x40 + 4)) := by decide

theorem test_hyp_HaltedMachineMakesNoStep : ({ adding with exc := 0x03 } : State).exc ≠ 0 := by decide

/-- One configuration for each clause, each one past what R263 admits. -/
theorem test_hyp_IllFormedLaunchIsRefused :
    adding.exc = 0 ∧ 0x80000000 < ({ launch with memLen := 0x80000001 } : Launch).memLen ∧
      ({ launch with textEnd := 0x3f, textStart := 0x40 } : Launch).textEnd <
        ({ launch with textEnd := 0x3f, textStart := 0x40 } : Launch).textStart ∧
      ({ launch with textEnd := 0x101 } : Launch).memLen < ({ launch with textEnd := 0x101 } : Launch).textEnd ∧
      ({ launch with checkExtNo := 1 } : Launch).checkExtYes = ({ launch with checkExtNo := 1 } : Launch).checkExtNo := by
  decide

/-- Also for RunsEndOnlyByAnException. -/
theorem test_hyp_StepIsDefinedWhileRunning : adding.exc = 0 ∧ adding.launch.wellFormed = true := by decide

theorem test_hyp_RaisingChangesNothingElse :
    step failing = .next { failing with exc := 0x03 } ∧ ({ failing with exc := 0x03 } : State).exc ≠ 0 := ⟨rfl, by decide⟩

theorem test_hyp_StepKeepsTheInvariant :
    storing.inv = true ∧ step storing = .next { storing with mem := memWrite storing.mem 0x80 4 0x11223344, pc := 4 } :=
  ⟨by decide, rfl⟩

theorem test_hyp_ReadOnlyBytesNeverChange :
    Host.Core.run Sys2Proof.core 1 storing =
        .next { storing with mem := memWrite storing.mem 0x80 4 0x11223344, pc := 4 } ∧
      isReadOnly storing.launch 0x4f = true := ⟨rfl, by decide⟩

/-- A next state, for the statements on what an instruction that answers one leaves unchanged: a store, a load, an extension call. -/
theorem test_hyp_frames :
    exec (.sw .A .B 0) storing = .next { storing with mem := memWrite storing.mem 0x80 4 0x11223344, pc := 4 } ∧
      exec (.lw .C .B 0) storing = .next { storing.setReg .C 0x89ab4567 with pc := 4 } ∧
      exec (.ecall .C .Z .Z 3) storing = .next { storing.setReg .C 0 with pc := 4 } := ⟨rfl, rfl, rfl⟩

theorem test_hyp_OnlyTheDestinationRegisterChanges : (Instr.lw .C .B 0).dest ≠ some Reg.A := by decide
theorem test_hyp_UnreadRegistersDoNotMatter :
    Reg.A ∉ (Instr.lw .C .B 0).sources ∧ (Instr.lw .C .B 0).dest ≠ some Reg.A := by decide
theorem test_hyp_OnlyStoredBytesChange :
    (0x7f : Nat) < (effAddr storing .B 0).toNat ∧ (effAddr storing .B 0).toNat + 4 ≤ 0x84 ∧
      isReadOnly storing.launch 0 = true ∧ storing.launch.memLen ≤ 0x100 := by decide
theorem test_hyp_HowThePcMoves :
    storing.exc = 0 ∧ exec (.lw .C .Z 0x102) storing = .next { storing with exc := 0x08 } ∧
      exec (.jal .Z 8) storing = .next { storing with pc := 8 } := ⟨rfl, rfl, rfl⟩

theorem test_hyp_HighAndLowWordMakeTheProduct :
    Reg.C ≠ .Z ∧ exec (.mul .C .A .B) (ready 0 0 0xffffffff 2 0) = .next { ready 0 0 0xffffffff 2 0xfffffffe with pc := 4 } ∧
      exec (.mulh .C .A .B) (ready 0 0 0xffffffff 2 0) = .next { ready 0 0 0xffffffff 2 0xffffffff with pc := 4 } ∧
      exec (.mulhu .C .A .B) (ready 0 0 0xffffffff 2 0) = .next { ready 0 0 0xffffffff 2 1 with pc := 4 } :=
  ⟨by decide, rfl, rfl, rfl⟩

/-- Also for SignedRemainderResults: a divisor 0, the overflow, and a remainder that is not 0. -/
theorem test_hyp_SignedDivideResults :
    (ready 0 0 5 0 0).getReg .B = 0 ∧
      ((ready 0 0 0x80000000 0xffffffff 0).getReg .A = 0x80000000 ∧
        (ready 0 0 0x80000000 0xffffffff 0).getReg .B = 0xffffffff) ∧
      ((ready 0 0 0x80000000 1 0).getReg .B ≠ 0 ∧
        ¬((ready 0 0 0x80000000 1 0).getReg .A = 0x80000000 ∧ (ready 0 0 0x80000000 1 0).getReg .B = 0xffffffff)) ∧
      remSigned 0xfffffff9 3 ≠ 0 := by decide

theorem test_hyp_QuotientTimesDivisorPlusRemainder :
    Reg.C ≠ .Z ∧ (ready 0 0 7 3 0).getReg .B ≠ 0 ∧
      exec (.div .C .A .B) (ready 0 0 7 3 0) = .next { ready 0 0 7 3 2 with pc := 4 } ∧
      exec (.rem .C .A .B) (ready 0 0 7 3 0) = .next { ready 0 0 7 3 1 with pc := 4 } ∧
      exec (.divu .C .A .B) (ready 0 0 7 3 0) = .next { ready 0 0 7 3 2 with pc := 4 } ∧
      exec (.remu .C .A .B) (ready 0 0 7 3 0) = .next { ready 0 0 7 3 1 with pc := 4 } :=
  ⟨by decide, by decide, rfl, rfl, rfl, rfl⟩

theorem test_hyp_ReverseHalfWordsResult : (ready 0 0 0x456789ab 0 0).getReg .A = reverseHalves 0x89ab4567 := by decide

/-- Counts of 0, 31 and 32: each clause of CountZerosResults at its bounds. -/
theorem test_hyp_CountZerosResults :
    leadingZeros 0x80000000 32 = 0 ∧ leadingZeros 1 32 = 31 ∧ leadingZeros 0 32 = 32 ∧
      trailingZeros 1 32 = 0 ∧ trailingZeros 0x80000000 32 = 31 ∧ trailingZeros 0 32 = 32 := by decide

/-- The last byte, half word and word of memory. -/
theorem test_hyp_LoadsDeliverTheBytes :
    ((ready 0 0 0xff 0 0).getReg .A + (0 : BitVec 16).signExtend 32).toNat = 0xff ∧ 0xff < 0x80000000 ∧
      0xff + 1 ≤ launch.memLen ∧ (0xfe + 2 ≤ launch.memLen ∧ 0xfe % 2 = 0) ∧
      (0xfc + 4 ≤ launch.memLen ∧ 0xfc % 4 = 0) := by decide

/-- The first addresses past those, the first negative address, and misaligned addresses in bounds. -/
theorem test_hyp_LoadsRaise :
    ((ready 0 0 0x80000000 0 0).getReg .A + (0 : BitVec 16).signExtend 32).toNat = 0x80000000 ∧
      launch.memLen < 0x100 + 1 ∧ launch.memLen < 0xff + 2 ∧ launch.memLen < 0xfd + 4 ∧
      (0xfd < 0x80000000 ∧ 0xfd + 2 ≤ launch.memLen ∧ 0xfd % 2 ≠ 0) ∧
      (0xfb < 0x80000000 ∧ 0xfb + 4 ≤ launch.memLen ∧ 0xfb % 4 ≠ 0) := by decide

/-- The first writable byte, half word and word, at 0x50, and the last word of memory. -/
theorem test_hyp_StoresPutTheBytes :
    ((ready 0 0 0 0x50 0).getReg .B + (0 : BitVec 16).signExtend 32).toNat = 0x50 ∧ 0x50 < 0x80000000 ∧
      (0x50 + 1 ≤ launch.memLen ∧ isReadOnly launch 0x50 = false) ∧
      (0x50 + 2 ≤ launch.memLen ∧ 0x50 % 2 = 0 ∧ ∀ k, k < 2 → isReadOnly launch (0x50 + k) = false) ∧
      (0xfc + 4 ≤ launch.memLen ∧ 0xfc % 4 = 0 ∧ ∀ k, k < 4 → isReadOnly launch (0xfc + k) = false) := by decide

/-- As for the loads, and the last read-only byte, half word and word. -/
theorem test_hyp_StoresRaise :
    (0xfd < 0x80000000 ∧ 0xfd + 2 ≤ launch.memLen ∧ 0xfd % 2 ≠ 0) ∧
      (0xfb < 0x80000000 ∧ 0xfb + 4 ≤ launch.memLen ∧ 0xfb % 4 ≠ 0) ∧
      launch.memLen < 0x100 + 1 ∧ launch.memLen < 0xff + 2 ∧ launch.memLen < 0xfd + 4 ∧
      (0x4f + 1 ≤ launch.memLen ∧ isReadOnly launch 0x4f = true) ∧
      (0x4e + 2 ≤ launch.memLen ∧ 0x4e % 2 = 0 ∧ 1 < 2 ∧ isReadOnly launch (0x4e + 1) = true) ∧
      (0x4c + 4 ≤ launch.memLen ∧ 0x4c % 4 = 0 ∧ 3 < 4 ∧ isReadOnly launch (0x4c + 3) = true) := by decide

theorem test_hyp_LoadReturnsTheLatestStore :
    storing.exc = 0 ∧
      exec (.sw .A .B 0) storing = .next { storing with mem := memWrite storing.mem 0x80 4 0x11223344, pc := 4 } ∧
      ({ storing with mem := memWrite storing.mem 0x80 4 0x11223344, pc := 4 } : State).exc = 0 := ⟨rfl, rfl, rfl⟩

/-- Operands for which each branch goes each way. -/
theorem test_hyp_BranchResults :
    (ready 0 0 5 5 0).getReg .A = (ready 0 0 5 5 0).getReg .B ∧ (ready 0 0 5 7 0).getReg .A ≠ (ready 0 0 5 7 0).getReg .B ∧
      ((ready 0 0 0xffffffff 1 0).getReg .A).toInt < ((ready 0 0 0xffffffff 1 0).getReg .B).toInt ∧
      ¬((ready 0 0 0xffffffff 1 0).getReg .A).toNat < ((ready 0 0 0xffffffff 1 0).getReg .B).toNat ∧
      ((ready 0 0 5 5 0).getReg .A).toInt ≥ ((ready 0 0 5 5 0).getReg .B).toInt ∧
      ((ready 0 0 5 5 0).getReg .A).toNat ≥ ((ready 0 0 5 5 0).getReg .B).toNat := by decide

/-- The least and the greatest opcode of each range of R77 and R78. -/
theorem test_hyp_InvalidWordsRaiseInstr :
    [(0x00, 0x03), (0x0e, 0x0f), (0x1d, 0x3e), (0x40, 0x43), (0x47, 0x47), (0x60, 0x7e)].all fun r : Nat × Nat =>
      (opcodeOf (BitVec.ofNat 32 r.1)).toNat == r.1 && (opcodeOf (BitVec.ofNat 32 r.2)).toNat == r.2 := by decide

/-- The ids 4 (not supported), 3 (always) and 0x10 (in a configuration that has it). -/
theorem test_hyp_UnsupportedExtensionRaisesExtmiss :
    let s := readyIn { launch with extensions := [0x10] } 0 0 0 4 0
    (s.getReg .B + (0 : BitVec 16).signExtend 32 ≠ 0x00000003 ∧
      s.getReg .B + (0 : BitVec 16).signExtend 32 ∉ s.launch.extensions) ∧
      s.exc = 0 ∧ s.getReg .B + (0xffff : BitVec 16).signExtend 32 = 0x00000003 ∧
      s.getReg .B + (0xc : BitVec 16).signExtend 32 ∈ s.launch.extensions := by decide

theorem test_hyp_CheckExtTellsWhatIsSupported :
    (ready 0 0 3 4 0).getReg .B + (0xffff : BitVec 16).signExtend 32 = 0x00000003 ∧
      (ready 0 0 3 4 0).getReg .A = 0x00000003 ∧ (ready 0 0 9 4 0).getReg .A ≠ 0x00000003 := by decide

/-- Both cases of the statement's match are cases of the free value `Config.extAnswer`: neither can be shown to be the one. -/
theorem test_hyp_HandlerAnswersAreDelivered :
    let s := readyIn { launch with extensions := [0x10] } 0 0 0 4 0
    s.getReg .B + (0xc : BitVec 16).signExtend 32 ≠ 0x00000003 ∧
      s.getReg .B + (0xc : BitVec 16).signExtend 32 ∈ s.launch.extensions := by decide

theorem test_hyp_LoadedWordIsTheNextInstruction :
    adding.launch.wellFormed = true ∧ adding.pc.toNat % 4 = 0 ∧ adding.pc.toNat < 0x80000000 ∧
      ({ adding with pc := 0x7ffffffc } : State).pc.toNat % 4 = 0 ∧
      ({ adding with pc := 0x7ffffffc } : State).pc.toNat < 0x80000000 := by decide

end Sys2Proof.Tests
end

namespace Sys2Proof.Machine

/-! ## The shared operation that each instruction is -/

/-- The shared operation that `exec i s` is, with what `i` names as its destination (R75). -/
inductive ExecShape (i : Instr) (s : State) : Prop
  /-- An invalid instruction (R213, R214). -/
  | raises (hd : i.dest = none) (h : exec i s = raise .instr s)
  /-- A result computed from registers, the pc and the immediate. -/
  | writes {rd : Reg} {v : Word} (hd : i.dest = some rd) (h : exec i s = writeAndAdvance rd v s)
  /-- ebreak (R210). -/
  | advances (hd : i.dest = none) (h : exec i s = advance s)
  /-- A jump (R191, R192). -/
  | links {rd : Reg} {p : Word} (hd : i.dest = some rd) (h : exec i s = linkAndGoTo rd p s)
  /-- A branch (R193 to R198). -/
  | branches {c : Bool} {imm16 : BitVec 16} (hd : i.dest = none) (h : exec i s = branchIf c imm16 s)
  /-- A load (R170). -/
  | loads {rd base : Reg} {imm16 : BitVec 16} {w : Width} {f : Word → Word} (hd : i.dest = some rd)
      (h : exec i s = loadTo rd base imm16 w f s)
  /-- A store (R171). -/
  | stores {value base : Reg} {imm16 : BitVec 16} {w : Width} (hd : i.dest = none)
      (h : exec i s = storeFrom value base imm16 w s)
  /-- An extension call (R211). -/
  | calls {rd rs1 rs2 : Reg} {imm16 : BitVec 16} (hi : i = .ecall rd rs1 rs2 imm16)
      (h : exec i s = callExtension rd (s.getReg rs2 + imm32 imm16) (s.getReg rs1) s)

/-- Every instruction is one of the shared operations: the only case split over the constructors of `Instr`. -/
theorem exec_shape (i : Instr) (s : State) : ExecShape i s := by
  cases i with
  | invalid => exact .raises rfl rfl
  | and | or | xor | sub | min | minu | max | maxu | slt | sltu => exact .writes rfl rfl
  | mul | mulh | mulhu | mulhsu | div | divu | rem | remu => exact .writes rfl rfl
  | revb | revh | clz | ctz | pcnt => exact .writes rfl rfl
  | andi | ori | xori | sll | srl | sra | add | slti | sltiu | lui | auipc => exact .writes rfl rfl
  | ebreak => exact .advances rfl rfl
  | jal | jalr => exact .links rfl rfl
  | beq | bne | blt | bltu | bge | bgeu => exact .branches rfl rfl
  | lb | lbu | lh | lhu | lw => exact .loads rfl rfl
  | sb | sh | sw => exact .stores rfl rfl
  | ecall => exact .calls rfl rfl

/-! ## The launch parameters and the draw counter -/

/-- The two fields of the model's own, the launch parameters (R8; log 1) and the draw counter (log 15), are as before. -/
def KeepsLaunchAndDraws (s t : State) : Prop := t.launch = s.launch ∧ t.draws = s.draws

theorem loadTo_keepsLaunchAndDraws {rd base : Reg} {imm16 : BitVec 16} {w : Width} {f : Word → Word} {s t : State}
    (h : loadTo rd base imm16 w f s = .next t) : KeepsLaunchAndDraws s t := by
  obtain ⟨_, _, rfl⟩ | rfl := loadTo_cases h
  · exact ⟨rfl, rfl⟩
  · exact ⟨rfl, rfl⟩

theorem storeFrom_keepsLaunchAndDraws {value base : Reg} {imm16 : BitVec 16} {w : Width} {s t : State}
    (h : storeFrom value base imm16 w s = .next t) : KeepsLaunchAndDraws s t := by
  obtain ⟨_, _, rfl⟩ | ⟨_, rfl⟩ := storeFrom_cases h
  · exact ⟨rfl, rfl⟩
  · exact ⟨rfl, rfl⟩

/-- A handler's answer takes the next draw; an exception and meta.check_ext take none. -/
theorem callExtension_launch_draws {rd : Reg} {id input : Word} {s t : State}
    (h : callExtension rd id input s = .next t) :
    t.launch = s.launch ∧ (t.draws = s.draws ∨ t.draws = s.draws + 1) := by
  obtain ⟨_, _, rfl⟩ | rfl | ⟨_, _, rfl⟩ := callExtension_cases h
  · exact ⟨rfl, .inl rfl⟩
  · exact ⟨rfl, .inl rfl⟩
  · exact ⟨rfl, .inr rfl⟩

/-- Only `ecall` can change the launch parameters or the draw counter at all. -/
theorem exec_keepsLaunchAndDraws_of_ne_ecall {i : Instr} {s t : State} (h : exec i s = .next t)
    (hi : ∀ rd rs1 rs2 imm16, i ≠ .ecall rd rs1 rs2 imm16) : KeepsLaunchAndDraws s t := by
  cases exec_shape i s with
  | raises _ he => cases raise_eq_next.mp (he ▸ h); exact ⟨rfl, rfl⟩
  | writes _ he => cases writeAndAdvance_eq_next.mp (he ▸ h); exact ⟨rfl, rfl⟩
  | advances _ he => cases advance_eq_next.mp (he ▸ h); exact ⟨rfl, rfl⟩
  | links _ he => cases linkAndGoTo_eq_next.mp (he ▸ h); exact ⟨rfl, rfl⟩
  | branches _ he => cases branchIf_eq_next.mp (he ▸ h); exact ⟨rfl, rfl⟩
  | loads _ he => exact loadTo_keepsLaunchAndDraws (he ▸ h)
  | stores _ he => exact storeFrom_keepsLaunchAndDraws (he ▸ h)
  | calls he => exact absurd he (hi _ _ _ _)

/-- Settles O27: `ecall` by what an extension call can do, every other instruction by its shared operation. -/
theorem launchAndDrawsAreKept : Obligations.LaunchAndDrawsAreKept := by
  intro i s t h
  split
  · exact callExtension_launch_draws h
  · next hi => exact exec_keepsLaunchAndDraws_of_ne_ecall h hi

end Sys2Proof.Machine

namespace Sys2Proof.Machine

/-! ## The register file and the start state -/

/-- Settles O1: `Reg.bits` and `Reg.ofBits` are inverse to each other. -/
theorem registerNumbersAreInOrder : Obligations.RegisterNumbersAreInOrder :=
  ⟨rfl, Reg.ofBits_bits, Reg.bits_ofBits⟩

/-- Settles O7, by the rules of a register read after a register write. -/
theorem registersHoldWhatIsWritten : Obligations.RegistersHoldWhatIsWritten := fun s _ _ v =>
  ⟨State.getReg_Z s, State.setReg_Z s v, State.getReg_setReg_self s v, State.getReg_setReg_ne s v⟩

/-- Settles O58, field by field; the reset state is a start state. -/
theorem startStateIsWhatIsLoaded : Obligations.StartStateIsWhatIsLoaded := by
  refine ⟨fun l image entry init => ?_, State.start_exc .., State.getReg_Z _⟩
  exact ⟨State.start_exc .., State.getReg_Z _, State.start_pc .., fun _ => by rw [State.start_mem],
    State.start_launch .., State.start_regs ..⟩

/-! ## Canonical memories -/

/-- A byte that does not read as an unlisted one is listed. -/
theorem Memory.mem_of_read_ne_blank {m : Memory} {a : Nat} (h : m.read a ≠ Memory.blank) : (a, m.read a) ∈ m := by
  induction m with
  | nil => exact absurd (Memory.read_nil a) h
  | cons c m ih =>
    obtain ⟨b, u⟩ := c
    rw [Memory.read_cons] at h ⊢
    by_cases hab : a = b
    · simp [hab]
    · rw [if_neg hab] at h ⊢
      exact List.mem_cons_of_mem _ (ih h)

/-- In a memory with rising addresses every listed byte is the one a read of its address finds. -/
theorem Memory.read_eq_of_mem {m : Memory} (hm : m.Pairwise fun c d => c.1 < d.1) {c : Host.Cell} (hc : c ∈ m) :
    m.read c.1 = c.2 := by
  induction m with
  | nil => cases hc
  | cons d m ih =>
    obtain ⟨hd, hm⟩ := List.pairwise_cons.mp hm
    rcases List.mem_cons.mp hc with rfl | hc
    · exact if_pos rfl
    · exact (if_neg (Nat.ne_of_gt (hd c hc))).trans (ih hm hc)

/-- What a canonical memory lists is what it reads, but for the blank bytes. -/
theorem Memory.mem_iff_read {m : Memory} (hm : m.wf = true) (c : Host.Cell) :
    c ∈ m ↔ m.read c.1 = c.2 ∧ c.2 ≠ Memory.blank := by
  obtain ⟨hrise, hblank⟩ := (Memory.wf_iff m).mp hm
  constructor
  · exact fun hc => ⟨Memory.read_eq_of_mem hrise hc, hblank c hc⟩
  · rintro ⟨hread, hc⟩
    have hlisted := Memory.mem_of_read_ne_blank (hread.trans_ne hc)
    rwa [hread] at hlisted

/-- A canonical memory lists no cell twice. -/
theorem Memory.nodup_of_wf {m : Memory} (hm : m.wf = true) : m.Nodup :=
  ((Memory.wf_iff m).mp hm).1.imp fun hlt => ne_of_apply_ne Prod.fst (Nat.ne_of_lt hlt)

/-- Settles O10: memories that read alike list the same cells, and the rising addresses fix their order. -/
theorem canonicalMemoriesThatReadAlikeAreEqual : Obligations.CanonicalMemoriesThatReadAlikeAreEqual := by
  intro m m' hm hm' hread
  have hmem : ∀ c, c ∈ m ↔ c ∈ m' := fun c => by rw [Memory.mem_iff_read hm, Memory.mem_iff_read hm', hread]
  have hperm : m.Perm m' :=
    (List.perm_ext_iff_of_nodup (Memory.nodup_of_wf hm) (Memory.nodup_of_wf hm')).mpr hmem
  obtain ⟨hrise, -⟩ := (Memory.wf_iff m).mp hm
  obtain ⟨hrise', -⟩ := (Memory.wf_iff m').mp hm'
  exact hperm.eq_of_pairwise (fun _ _ _ _ hlt hgt => absurd hlt (Nat.lt_asymm hgt)) hrise hrise'

/-! ## What an instruction does to the state -/

/-- Everything `exec i` can do to a state that it answers, with the register it may write (R75). -/
inductive ExecEffect (i : Instr) (s t : State) : Prop
  /-- An exception that can occur (R238): nothing else changes (R240). -/
  | raised {e : Exc} (he : legalExc e.code = true) (ht : t = { s with exc := e.code })
  /-- Only the pc changes. -/
  | moved {p : Word} (ht : t = { s with pc := p })
  /-- The destination register and the pc. -/
  | wrote {rd : Reg} {v p : Word} (hd : i.dest = some rd) (ht : t = { s.setReg rd v with pc := p })
  /-- The bytes of a store, all below `MEMLEN`, and the pc. -/
  | stored {a n : Nat} {v p : Word} (ha : a + n ≤ s.launch.memLen)
      (ht : t = { s with mem := memWrite s.mem a n v, pc := p })
  /-- A handler's answer: the destination register, its writes, the draw and the pc. -/
  | answered {rd : Reg} {v p : Word} {ws : List Host.Cell} {d : Nat} (hd : i.dest = some rd)
      (ht : t = { s.setReg rd v with mem := extWrites s.launch ws s.mem, draws := d, pc := p })

/-- Every instruction has one of these effects, by the shared operation it is. -/
theorem exec_effect {i : Instr} {s t : State} (h : exec i s = .next t) : ExecEffect i s t := by
  cases exec_shape i s with
  | raises _ he => exact .raised rfl (raise_eq_next.mp (he ▸ h))
  | writes hd he => exact .wrote hd (writeAndAdvance_eq_next.mp (he ▸ h))
  | advances _ he => exact .moved (advance_eq_next.mp (he ▸ h))
  | links hd he => exact .wrote hd (linkAndGoTo_eq_next.mp (he ▸ h))
  | branches _ he => exact .moved (branchIf_eq_next.mp (he ▸ h))
  | loads hd he =>
    obtain ⟨e, rfl | ⟨rfl, -⟩, ht⟩ | ht := loadTo_cases (he ▸ h)
    · exact .raised rfl ht
    · exact .raised rfl ht
    · exact .wrote hd ht
  | stores _ he =>
    obtain ⟨e, rfl | ⟨rfl, -⟩ | rfl, ht⟩ | ⟨⟨ha, -⟩, ht⟩ := storeFrom_cases (he ▸ h)
    · exact .raised rfl ht
    · exact .raised rfl ht
    · exact .raised rfl ht
    · exact .stored ha ht
  | calls hi he =>
    obtain ⟨e, rfl | rfl, ht⟩ | ht | ⟨v, ws, ht⟩ := callExtension_cases (he ▸ h)
    · exact .raised rfl ht
    · exact .raised rfl ht
    · exact .wrote (hi ▸ rfl) ht
    · exact .answered (hi ▸ rfl) ht

/-! ## The invariant -/

theorem State.inv_iff {s : State} :
    s.inv = true ↔ s.mem.wf = true ∧ s.mem.within s.launch.memLen = true ∧ s.launch.wellFormed = true ∧
      legalExc s.exc = true := by
  simp [State.inv, and_assoc]

theorem inv_with_exc {s : State} (hs : s.inv = true) {e : Exc} (he : legalExc e.code = true) :
    State.inv { s with exc := e.code } = true := by
  obtain ⟨hwf, hin, hl, -⟩ := State.inv_iff.mp hs
  exact State.inv_iff.mpr ⟨hwf, hin, hl, he⟩

theorem exec_keeps_inv {i : Instr} {s t : State} (hs : s.inv = true) (h : exec i s = .next t) : t.inv = true := by
  obtain ⟨hwf, hin, hl, hx⟩ := State.inv_iff.mp hs
  cases exec_effect h with
  | raised he ht => exact ht ▸ inv_with_exc hs he
  | moved ht => exact ht ▸ hs
  | wrote _ ht => exact ht ▸ hs
  | stored ha ht => exact ht ▸ State.inv_iff.mpr ⟨memWrite_wf hwf .., memWrite_within hin ha _, hl, hx⟩
  | answered _ ht => exact ht ▸ State.inv_iff.mpr ⟨extWrites_wf hwf _, extWrites_within hin _, hl, hx⟩

/-- Settles O20: a step raises a fetch exception or executes an instruction, and both keep the invariant. -/
theorem stepKeepsTheInvariant : Obligations.StepKeepsTheInvariant := by
  intro s t hs h
  obtain ⟨-, -, ⟨e, -, rfl | rfl | rfl, ht⟩ | ⟨w, -, hexec⟩⟩ := step_cases h
  · exact ht ▸ inv_with_exc hs rfl
  · exact ht ▸ inv_with_exc hs rfl
  · exact ht ▸ inv_with_exc hs rfl
  · exact exec_keeps_inv hs hexec

/-- Settles O21: the reset memory lists nothing, and the reset configuration meets each constraint of R263. -/
theorem resetMeetsTheInvariant : Obligations.ResetMeetsTheInvariant :=
  State.inv_iff.mpr ⟨rfl, rfl, (wellFormed_iff _).mpr (by decide), rfl⟩

/-! ## The registers -/

/-- Settles O24, by the five effects: two write a register, and it is the destination. -/
theorem onlyTheDestinationRegisterChanges : Obligations.OnlyTheDestinationRegisterChanges := by
  intro i s t r h hr
  have hne : ∀ {rd}, i.dest = some rd → r ≠ rd := by
    rintro _ hd rfl
    exact hr hd
  cases exec_effect h with
  | raised _ ht => subst ht; rfl
  | moved ht => subst ht; rfl
  | wrote hd ht => subst ht; exact State.getReg_setReg_ne s _ (hne hd)
  | stored _ ht => subst ht; rfl
  | answered hd ht => subst ht; exact State.getReg_setReg_ne s _ (hne hd)

section UnreadRegister

variable {s t : State} {r rd base value : Reg} {v x x' p p' id id' input input' : Word} {c c' : Bool}
  {imm16 : BitVec 16} {w : Width} {f : Word → Word}

theorem State.setReg_comm (s : State) {q r : Reg} (u v : Word) (h : q ≠ r) :
    (s.setReg r v).setReg q u = (s.setReg q u).setReg r v := by
  simp only [State.setReg, RegFile.set_comm _ _ _ h.symm]

/-! Each shared operation, run with another value in a register it does not write, and with the same operands, answers
the same state but for that value. -/

theorem raise_setReg {e : Exc} (h : raise e s = .next t) : raise e (s.setReg r v) = .next (t.setReg r v) := by
  cases raise_eq_next.mp h
  rfl

theorem advance_setReg (h : advance s = .next t) : advance (s.setReg r v) = .next (t.setReg r v) := by
  cases advance_eq_next.mp h
  rfl

theorem branchIf_setReg (hc : c' = c) (h : branchIf c imm16 s = .next t) :
    branchIf c' imm16 (s.setReg r v) = .next (t.setReg r v) := by
  cases branchIf_eq_next.mp h
  exact hc ▸ branchIf_eq_next.mpr rfl

theorem writeAndAdvance_setReg (hd : rd ≠ r) (hx : x' = x) (h : writeAndAdvance rd x s = .next t) :
    writeAndAdvance rd x' (s.setReg r v) = .next (t.setReg r v) := by
  cases writeAndAdvance_eq_next.mp h
  rw [writeAndAdvance_eq_next, State.setReg_comm s _ _ hd, hx]
  rfl

theorem linkAndGoTo_setReg (hd : rd ≠ r) (hp : p' = p) (h : linkAndGoTo rd p s = .next t) :
    linkAndGoTo rd p' (s.setReg r v) = .next (t.setReg r v) := by
  cases linkAndGoTo_eq_next.mp h
  rw [linkAndGoTo_eq_next, State.setReg_comm s _ _ hd, hp]
  rfl

theorem loadTo_setReg (hd : rd ≠ r) (hb : (s.setReg r v).getReg base = s.getReg base)
    (h : loadTo rd base imm16 w f s = .next t) :
    loadTo rd base imm16 w f (s.setReg r v) = .next (t.setReg r v) := by
  have ha : effAddr (s.setReg r v) base imm16 = effAddr s base imm16 := by rw [effAddr, hb, effAddr]
  have hl : load (s.setReg r v) (effAddr s base imm16) (widthBytes w) =
      load s (effAddr s base imm16) (widthBytes w) := rfl
  unfold loadTo at h ⊢
  rw [ha, hl]
  cases hload : load s (effAddr s base imm16) (widthBytes w) with
  | error e => rw [hload] at h; exact raise_setReg h
  | ok u => rw [hload] at h; exact writeAndAdvance_setReg hd rfl h

/-- A store writes memory alone, and no register says where or whether. -/
theorem store_setReg (s : State) (r : Reg) (v addr x : Word) (n : Nat) :
    store (s.setReg r v) addr n x = (store s addr n x).map fun u => u.setReg r v := by
  unfold store
  rw [State.setReg_launch]
  split_ifs <;> rfl

theorem storeFrom_setReg (hv : (s.setReg r v).getReg value = s.getReg value)
    (hb : (s.setReg r v).getReg base = s.getReg base) (h : storeFrom value base imm16 w s = .next t) :
    storeFrom value base imm16 w (s.setReg r v) = .next (t.setReg r v) := by
  have ha : effAddr (s.setReg r v) base imm16 = effAddr s base imm16 := by rw [effAddr, hb, effAddr]
  unfold storeFrom at h ⊢
  rw [ha, hv, store_setReg]
  cases hstore : store s (effAddr s base imm16) (widthBytes w) (s.getReg value) with
  | error e => rw [hstore] at h; exact raise_setReg h
  | ok u => rw [hstore] at h; exact advance_setReg h

theorem callHandler_setReg (hd : rd ≠ r) (h : callHandler rd id input s = .next t) :
    callHandler rd id input (s.setReg r v) = .next (t.setReg r v) := by
  unfold callHandler at h ⊢
  rw [State.setReg_launch, State.setReg_draws, State.setReg_mem]
  cases hanswer : Config.extAnswer s.launch s.draws id input s.mem with
  | err => rw [hanswer] at h; exact raise_setReg h
  | ok u ws => rw [hanswer] at h; exact writeAndAdvance_setReg hd rfl h

theorem callExtension_setReg (hd : rd ≠ r) (hid : id' = id) (hin : input' = input)
    (h : callExtension rd id input s = .next t) :
    callExtension rd id' input' (s.setReg r v) = .next (t.setReg r v) := by
  subst hid hin
  unfold callExtension at h ⊢
  rw [State.setReg_launch]
  split_ifs at h ⊢
  · exact raise_setReg h
  · exact writeAndAdvance_setReg hd rfl h
  · exact callHandler_setReg hd h

end UnreadRegister

/-- Settles O25: the operands of each instruction are those of its sources, and its shared operation leaves a register
that is not `rd` alone. -/
theorem unreadRegistersDoNotMatter : Obligations.UnreadRegistersDoNotMatter := by
  intro i s t r v hr hd h
  have hsrc : ∀ q ∈ i.sources, (s.setReg r v).getReg q = s.getReg q := fun q hq =>
    State.getReg_setReg_ne s v fun heq => hr (heq ▸ hq)
  have hdest : ∀ rd, i.dest = some rd → rd ≠ r := fun rd hrd heq => hd (heq ▸ hrd)
  cases i with
  | invalid => exact raise_setReg h
  | ebreak => exact advance_setReg h
  | lui | auipc => exact writeAndAdvance_setReg (hdest _ rfl) rfl h
  | jal => exact linkAndGoTo_setReg (hdest _ rfl) rfl h
  | and | or | xor | sub | min | minu | max | maxu | slt | sltu | mul | mulh | mulhu | mulhsu | div | divu | rem | remu
  | revb | revh | clz | ctz | pcnt | andi | ori | xori | sll | srl | sra | add | slti | sltiu =>
    simp only [Instr.sources, List.forall_mem_cons] at hsrc
    exact writeAndAdvance_setReg (hdest _ rfl) (by simp only [hsrc]) h
  | jalr => exact linkAndGoTo_setReg (hdest _ rfl) (by rw [hsrc _ (.head _)]) h
  | beq | bne | blt | bltu | bge | bgeu =>
    simp only [Instr.sources, List.forall_mem_cons] at hsrc
    exact branchIf_setReg (by simp only [hsrc]) h
  | lb | lbu | lh | lhu | lw => exact loadTo_setReg (hdest _ rfl) (hsrc _ (.head _)) h
  | sb | sh | sw => exact storeFrom_setReg (hsrc _ (.head _)) (hsrc _ (.tail _ (.head _))) h
  | ecall =>
    simp only [Instr.sources, List.forall_mem_cons] at hsrc
    exact callExtension_setReg (hdest _ rfl) (by simp only [hsrc]) (by simp only [hsrc]) h

/-! ## The program counter -/

/-- No exception has the code of a running machine (R222, R28). -/
theorem Exc.code_ne_zero (e : Exc) : e.code ≠ 0 := by cases e <;> decide

theorem ltSigned_iff (a b : Word) : ltSigned a b = true ↔ a.toInt < b.toInt := decide_eq_true_iff
theorem ltUnsigned_iff (a b : Word) : ltUnsigned a b = true ↔ a.toNat < b.toNat := decide_eq_true_iff
theorem geSigned_iff (a b : Word) : geSigned a b = true ↔ b.toInt ≤ a.toInt := decide_eq_true_iff
theorem geUnsigned_iff (a b : Word) : geUnsigned a b = true ↔ b.toNat ≤ a.toNat := decide_eq_true_iff

/-- From a running state, an instruction that raises leaves the pc (R240). -/
theorem pc_of_exec_raised {i : Instr} {s t : State} (hs : s.exc = 0) (h : exec i s = .next t) (hx : t.exc ≠ 0) :
    t.pc = s.pc := by
  cases exec_effect h with
  | raised _ ht => subst ht; rfl
  | moved ht | wrote _ ht | stored _ ht | answered _ ht => subst ht; exact absurd hs hx

section PcAfter

variable {s t : State}

/-- A state with an exception raised is not running. -/
theorem ne_with_exc_of_running (hx : t.exc = 0) (e : Exc) : t ≠ { s with exc := e.code } := by
  rintro rfl
  exact e.code_ne_zero hx

theorem writeAndAdvance_pc {rd : Reg} {x : Word} (h : writeAndAdvance rd x s = .next t) : t.pc = s.pc + 4 := by
  cases writeAndAdvance_eq_next.mp h
  rfl

theorem linkAndGoTo_pc {rd : Reg} {p : Word} (h : linkAndGoTo rd p s = .next t) : t.pc = p := by
  cases linkAndGoTo_eq_next.mp h
  rfl

/-- A branch on a condition `c` that decides `P`. -/
theorem branchIf_pc {c : Bool} {P : Prop} [Decidable P] {imm16 : BitVec 16} (hc : c = true ↔ P)
    (h : branchIf c imm16 s = .next t) : t.pc = if P then s.pc + imm16.signExtend 32 else s.pc + 4 := by
  cases branchIf_eq_next.mp h
  simp only [hc, imm32]

theorem loadTo_pc {rd base : Reg} {imm16 : BitVec 16} {w : Width} {f : Word → Word} (hx : t.exc = 0)
    (h : loadTo rd base imm16 w f s = .next t) : t.pc = s.pc + 4 := by
  obtain ⟨e, -, ht⟩ | rfl := loadTo_cases h
  · exact absurd ht (ne_with_exc_of_running hx e)
  · rfl

theorem storeFrom_pc {value base : Reg} {imm16 : BitVec 16} {w : Width} (hx : t.exc = 0)
    (h : storeFrom value base imm16 w s = .next t) : t.pc = s.pc + 4 := by
  obtain ⟨e, -, ht⟩ | ⟨-, rfl⟩ := storeFrom_cases h
  · exact absurd ht (ne_with_exc_of_running hx e)
  · rfl

theorem callExtension_pc {rd : Reg} {id input : Word} (hx : t.exc = 0) (h : callExtension rd id input s = .next t) :
    t.pc = s.pc + 4 := by
  obtain ⟨e, -, ht⟩ | rfl | ⟨_, _, rfl⟩ := callExtension_cases h
  · exact absurd ht (ne_with_exc_of_running hx e)
  · rfl
  · rfl

end PcAfter

/-- Settles O28: an exception leaves the pc (R240), and an instruction that completes moves it as its shared operation
does. -/
theorem howThePcMoves : Obligations.HowThePcMoves := by
  intro i s t hs h
  refine ⟨pc_of_exec_raised hs h, fun hx => ?_⟩
  cases i with
  | invalid => exact absurd (raise_eq_next.mp h) (ne_with_exc_of_running hx .instr)
  | and | or | xor | sub | min | minu | max | maxu | slt | sltu | mul | mulh | mulhu | mulhsu | div | divu | rem | remu
  | revb | revh | clz | ctz | pcnt | andi | ori | xori | sll | srl | sra | add | slti | sltiu | lui | auipc =>
    exact writeAndAdvance_pc h
  | ebreak => exact congrArg State.pc (advance_eq_next.mp h)
  | jal | jalr => exact linkAndGoTo_pc h
  | beq => exact branchIf_pc beq_iff_eq h
  | bne => exact branchIf_pc bne_iff_ne h
  | blt => exact branchIf_pc (ltSigned_iff ..) h
  | bltu => exact branchIf_pc (ltUnsigned_iff ..) h
  | bge => exact branchIf_pc (geSigned_iff ..) h
  | bgeu => exact branchIf_pc (geUnsigned_iff ..) h
  | lb | lbu | lh | lhu | lw => exact loadTo_pc hx h
  | sb | sh | sw => exact storeFrom_pc hx h
  | ecall => exact callExtension_pc hx h

end Sys2Proof.Machine

namespace Sys2Proof.Machine

/-! ## Reads of bytes just written -/

/-- Byte `k` of what was written is byte `k` of the value (R46). -/
theorem read_memWrite_add {n k : Nat} (m : Memory) (p : Nat) (v : Word) (hk : k < n) :
    (memWrite m p n v).read (p + k) = v.extractLsb' (8 * k) 8 := by
  rw [read_memWrite, if_pos (by omega), Nat.add_sub_cancel_left]

/-- A write changes no byte outside its own (R46). -/
theorem read_memWrite_outside {p n a : Nat} (m : Memory) (v : Word) (ha : a < p ∨ p + n ≤ a) :
    (memWrite m p n v).read a = m.read a := by
  rw [read_memWrite, if_neg (by omega)]

/-- A read inside the bytes just written finds the bits of the value that were put there (R45, R46, R47). -/
theorem memRead_memWrite {n k j : Nat} (m : Memory) (p : Nat) (v : Word) (hkj : k + j ≤ n) :
    memRead (memWrite m p n v) (p + k) j = ((v >>> (8 * k)).setWidth (8 * j)).setWidth 32 := by
  induction j generalizing k with
  | zero => simp [memRead_zero, BitVec.of_length_zero]
  | succ j ih =>
    have hhigh := ih (k := k + 1) (by omega)
    rw [memRead, Nat.add_assoc, hhigh, read_memWrite_add m p v (by omega)]
    apply BitVec.eq_of_getLsbD_eq
    intro i hi
    simp only [BitVec.getLsbD_or, BitVec.getLsbD_shiftLeft, BitVec.getLsbD_setWidth, BitVec.getLsbD_ushiftRight,
      BitVec.getLsbD_extractLsb']
    by_cases h8 : i < 8
    · simp [h8, hi, show i < 8 * (j + 1) by omega]
    · have hj : i - 8 < 8 * j ↔ i < 8 * (j + 1) := by omega
      simp [h8, hi, hj, show i - 8 < 32 by omega, show 8 * (k + 1) + (i - 8) = 8 * k + i by omega]

/-- The whole of what was written, read back. -/
theorem memRead_memWrite_self (m : Memory) (p n : Nat) (v : Word) :
    memRead (memWrite m p n v) p n = (v.setWidth (8 * n)).setWidth 32 := by
  simpa using memRead_memWrite (k := 0) m p v (Nat.le_of_eq (Nat.zero_add n))

/-- The low bits of a word, as a mask. -/
theorem setWidth_setWidth_eq_and (v : Word) {n : Nat} (hn : n ≤ 32) :
    (v.setWidth n).setWidth 32 = v &&& BitVec.ofNat 32 (2 ^ n - 1) := by
  apply BitVec.eq_of_toNat_eq
  have hpow : 2 ^ n ≤ 2 ^ 32 := Nat.pow_le_pow_right (by decide) hn
  have hpos : 0 < 2 ^ n := Nat.two_pow_pos n
  have hv : v.toNat % 2 ^ n < 2 ^ n := Nat.mod_lt _ hpos
  rw [BitVec.toNat_and, BitVec.toNat_ofNat, Nat.mod_eq_of_lt (show 2 ^ n - 1 < 2 ^ 32 by omega),
    Nat.and_two_pow_sub_one_eq_mod, BitVec.toNat_setWidth, BitVec.toNat_setWidth, Nat.mod_eq_of_lt (by omega)]

/-- The upper half of a word has no more bits than a half word. -/
theorem setWidth_setWidth_upperHalf (v : Word) : ((v >>> 16).setWidth 16).setWidth 32 = v >>> 16 := by
  bv_omega

/-- Settles O8: the value read back is the low bits of the one written, and `memWrite` put or left each byte. -/
theorem memReadAfterMemWrite : Obligations.MemReadAfterMemWrite := by
  intro m p w v n m'
  refine ⟨?_, fun k => read_memWrite_add m p v, fun a => read_memWrite_outside m v⟩
  have hfits : v.toNat % 2 ^ (8 * n) < 2 ^ 32 := Nat.lt_of_le_of_lt (Nat.mod_le ..) v.isLt
  rw [memRead_memWrite_self, BitVec.toNat_setWidth, BitVec.toNat_setWidth, Nat.mod_eq_of_lt hfits]

/-- Settles O9: each narrow read lies inside the four bytes written. -/
theorem narrowReadsSeePartOfAWord : Obligations.NarrowReadsSeePartOfAWord := by
  intro m p v m'
  refine ⟨fun k hk => ?_, ?_, ?_⟩
  · rw [memRead_memWrite m p v (show k + 1 ≤ 4 by omega)]
    exact setWidth_setWidth_eq_and _ (by decide)
  · have hlow : memRead m' p 2 = (v.setWidth 16).setWidth 32 := by
      simpa using memRead_memWrite (k := 0) m p v (show 0 + 2 ≤ 4 by decide)
    exact hlow.trans (setWidth_setWidth_eq_and v (by decide))
  · rw [memRead_memWrite m p v (show 2 + 2 ≤ 4 by decide)]
    exact setWidth_setWidth_upperHalf v

/-! ## The memory an instruction leaves -/

section MemoryFrame

variable {s t : State} {rd base value : Reg} {x p id input : Word} {c : Bool} {imm16 : BitVec 16} {w : Width}
  {f : Word → Word}

/-! The shared operations other than a store and an extension call leave every byte as it was. -/

theorem raise_read {e : Exc} (h : raise e s = .next t) (a : Nat) : t.mem.read a = s.mem.read a := by
  cases raise_eq_next.mp h
  rfl

theorem advance_read (h : advance s = .next t) (a : Nat) : t.mem.read a = s.mem.read a := by
  cases advance_eq_next.mp h
  rfl

theorem writeAndAdvance_read (h : writeAndAdvance rd x s = .next t) (a : Nat) : t.mem.read a = s.mem.read a := by
  cases writeAndAdvance_eq_next.mp h
  rfl

theorem linkAndGoTo_read (h : linkAndGoTo rd p s = .next t) (a : Nat) : t.mem.read a = s.mem.read a := by
  cases linkAndGoTo_eq_next.mp h
  rfl

theorem branchIf_read (h : branchIf c imm16 s = .next t) (a : Nat) : t.mem.read a = s.mem.read a := by
  cases branchIf_eq_next.mp h
  rfl

theorem loadTo_read (h : loadTo rd base imm16 w f s = .next t) (a : Nat) : t.mem.read a = s.mem.read a := by
  obtain ⟨_, _, rfl⟩ | rfl := loadTo_cases h
  · rfl
  · rfl

/-- A store changes no byte outside its access (R46). -/
theorem storeFrom_read_outside (h : storeFrom value base imm16 w s = .next t) {a : Nat}
    (ha : a < (effAddr s base imm16).toNat ∨ (effAddr s base imm16).toNat + widthBytes w ≤ a) :
    t.mem.read a = s.mem.read a := by
  obtain ⟨_, _, rfl⟩ | ⟨-, rfl⟩ := storeFrom_cases h
  · rfl
  · exact read_memWrite_outside s.mem _ ha

/-- A store changes no read-only byte: one with a read-only byte in its access raises (R50, D7). -/
theorem storeFrom_read_readOnly (h : storeFrom value base imm16 w s = .next t) {a : Nat}
    (ha : isReadOnly s.launch a = true) : t.mem.read a = s.mem.read a := by
  obtain ⟨_, _, rfl⟩ | ⟨⟨-, hwritable⟩, -⟩ := storeFrom_cases h
  · rfl
  · refine storeFrom_read_outside h ?_
    by_contra hin
    obtain ⟨k, rfl⟩ := Nat.exists_eq_add_of_le (show (effAddr s base imm16).toNat ≤ a by omega)
    exact absurd ha (ne_true_of_eq_false (hwritable k (by omega)))

/-- An extension call changes no read-only byte, and none at or above `MEMLEN` (R211, D15). -/
theorem callExtension_read_protected (h : callExtension rd id input s = .next t) {a : Nat}
    (ha : isReadOnly s.launch a = true ∨ s.launch.memLen ≤ a) : t.mem.read a = s.mem.read a := by
  obtain ⟨_, _, rfl⟩ | rfl | ⟨_, ws, rfl⟩ := callExtension_cases h
  · rfl
  · rfl
  · exact read_extWrites_protected ha s.mem ws

end MemoryFrame

/-! ## Read-only bytes -/

/-- The launch parameters, and with them what is read-only, are as before, and so is every read-only byte (R59). -/
def KeepsReadOnly (s t : State) : Prop :=
  t.launch = s.launch ∧ ∀ a, isReadOnly s.launch a = true → t.mem.read a = s.mem.read a

theorem KeepsReadOnly.refl (s : State) : KeepsReadOnly s s := ⟨rfl, fun _ _ => rfl⟩

theorem KeepsReadOnly.trans {s u t : State} (hsu : KeepsReadOnly s u) (hut : KeepsReadOnly u t) :
    KeepsReadOnly s t := by
  obtain ⟨hl, hread⟩ := hsu
  obtain ⟨hl', hread'⟩ := hut
  exact ⟨hl'.trans hl, fun a ha => (hread' a (hl ▸ ha)).trans (hread a ha)⟩

theorem exec_read_readOnly {i : Instr} {s t : State} (h : exec i s = .next t) {a : Nat}
    (ha : isReadOnly s.launch a = true) : t.mem.read a = s.mem.read a := by
  cases exec_shape i s with
  | raises _ he => exact raise_read (he ▸ h) a
  | writes _ he => exact writeAndAdvance_read (he ▸ h) a
  | advances _ he => exact advance_read (he ▸ h) a
  | links _ he => exact linkAndGoTo_read (he ▸ h) a
  | branches _ he => exact branchIf_read (he ▸ h) a
  | loads _ he => exact loadTo_read (he ▸ h) a
  | stores _ he => exact storeFrom_read_readOnly (he ▸ h) ha
  | calls _ he => exact callExtension_read_protected (he ▸ h) (.inl ha)

/-- A step raises a fetch exception, which leaves memory, or executes the instruction its fetch finds. -/
theorem step_keepsReadOnly {s t : State} (h : step s = .next t) : KeepsReadOnly s t := by
  obtain ⟨-, -, ⟨_, -, -, rfl⟩ | ⟨w, -, hexec⟩⟩ := step_cases h
  · exact ⟨rfl, fun _ _ => rfl⟩
  · obtain ⟨hlaunch, -⟩ := launchAndDrawsAreKept _ _ _ hexec
    exact ⟨hlaunch, fun _ => exec_read_readOnly hexec⟩

/-- Settles O22, by induction on the number of steps: each step keeps the read-only bytes and what is read-only. -/
theorem readOnlyBytesNeverChange : Obligations.ReadOnlyBytesNeverChange := by
  intro n
  induction n with
  | zero =>
    intro s t h
    rw [run_zero] at h
    cases h
    exact KeepsReadOnly.refl s
  | succ n ih =>
    intro s t h
    obtain ⟨u, hstep, hrun⟩ := run_succ_eq_next.mp h
    exact (step_keepsReadOnly hstep).trans (ih u t hrun)

/-- Settles O26, instruction by instruction, by the frame of the shared operation that each is. -/
theorem onlyStoredBytesChange : Obligations.OnlyStoredBytesChange := by
  intro i s t a h
  cases i with
  | invalid => exact raise_read h a
  | and | or | xor | sub | min | minu | max | maxu | slt | sltu | mul | mulh | mulhu | mulhsu | div | divu | rem | remu
  | revb | revh | clz | ctz | pcnt | andi | ori | xori | sll | srl | sra | add | slti | sltiu | lui | auipc =>
    exact writeAndAdvance_read h a
  | ebreak => exact advance_read h a
  | jal | jalr => exact linkAndGoTo_read h a
  | beq | bne | blt | bltu | bge | bgeu => exact branchIf_read h a
  | lb | lbu | lh | lhu | lw => exact loadTo_read h a
  | sb => exact fun ha => storeFrom_read_outside h (Nat.lt_or_gt_of_ne ha)
  | sh | sw => exact storeFrom_read_outside h
  | ecall => exact callExtension_read_protected h

/-! ## The accesses that raise, and those that complete -/

section CheckedAccess

variable {s t : State} {rd base value : Reg} {imm16 : BitVec 16} {w : Width} {f : Word → Word}

theorem loadTo_out_of_bounds
    (hout : 0x80000000 ≤ (effAddr s base imm16).toNat ∨
      s.launch.memLen < (effAddr s base imm16).toNat + widthBytes w) :
    loadTo rd base imm16 w f s = raise .lbounds s := by
  obtain ⟨-, hl⟩ | ⟨hin, -⟩ | ⟨hin, -⟩ := load_cases s (effAddr s base imm16) (widthBytes w)
  · rw [loadTo, hl]
  · omega
  · omega

theorem loadTo_misaligned
    (hin : (effAddr s base imm16).toNat < 0x80000000 ∧
      (effAddr s base imm16).toNat + widthBytes w ≤ s.launch.memLen)
    (hmod : (effAddr s base imm16).toNat % widthBytes w ≠ 0) :
    loadTo rd base imm16 w f s = raise .lalign s := by
  obtain ⟨hout, -⟩ | ⟨-, -, hl⟩ | ⟨-, hal, -⟩ := load_cases s (effAddr s base imm16) (widthBytes w)
  · exact absurd hin hout
  · rw [loadTo, hl]
  · exact absurd hal hmod

theorem loadTo_completes
    (hin : (effAddr s base imm16).toNat < 0x80000000 ∧
      (effAddr s base imm16).toNat + widthBytes w ≤ s.launch.memLen)
    (hal : (effAddr s base imm16).toNat % widthBytes w = 0) :
    loadTo rd base imm16 w f s =
      writeAndAdvance rd (f (memRead s.mem (effAddr s base imm16).toNat (widthBytes w))) s := by
  obtain ⟨hout, -⟩ | ⟨-, hmod, -⟩ | ⟨-, -, hl⟩ := load_cases s (effAddr s base imm16) (widthBytes w)
  · exact absurd hin hout
  · exact absurd hal hmod
  · rw [loadTo, hl]

theorem storeFrom_out_of_bounds
    (hout : 0x80000000 ≤ (effAddr s base imm16).toNat ∨
      s.launch.memLen < (effAddr s base imm16).toNat + widthBytes w) :
    storeFrom value base imm16 w s = raise .sbounds s := by
  obtain ⟨-, hst⟩ | ⟨hin, -⟩ | ⟨hin, -⟩ | ⟨hin, -⟩ :=
    store_cases s (effAddr s base imm16) (widthBytes w) (s.getReg value)
  · rw [storeFrom, hst]
  · omega
  · omega
  · omega

theorem storeFrom_misaligned
    (hin : (effAddr s base imm16).toNat < 0x80000000 ∧
      (effAddr s base imm16).toNat + widthBytes w ≤ s.launch.memLen)
    (hmod : (effAddr s base imm16).toNat % widthBytes w ≠ 0) :
    storeFrom value base imm16 w s = raise .salign s := by
  obtain ⟨hout, -⟩ | ⟨-, -, hst⟩ | ⟨-, hal, -⟩ | ⟨-, hal, -⟩ :=
    store_cases s (effAddr s base imm16) (widthBytes w) (s.getReg value)
  · exact absurd hin hout
  · rw [storeFrom, hst]
  · exact absurd hal hmod
  · exact absurd hal hmod

theorem storeFrom_readOnly
    (hin : (effAddr s base imm16).toNat < 0x80000000 ∧
      (effAddr s base imm16).toNat + widthBytes w ≤ s.launch.memLen)
    (hal : (effAddr s base imm16).toNat % widthBytes w = 0)
    (hro : ∃ k, k < widthBytes w ∧ isReadOnly s.launch ((effAddr s base imm16).toNat + k) = true) :
    storeFrom value base imm16 w s = raise .sro s := by
  obtain ⟨hout, -⟩ | ⟨-, hmod, -⟩ | ⟨-, -, -, hst⟩ | ⟨-, -, hwritable, -⟩ :=
    store_cases s (effAddr s base imm16) (widthBytes w) (s.getReg value)
  · exact absurd hin hout
  · exact absurd hal hmod
  · rw [storeFrom, hst]
  · obtain ⟨k, hk, hkro⟩ := hro
    exact absurd hkro (ne_true_of_eq_false (hwritable k hk))

/-- A store that completes has passed the checks that a load of the same bytes makes (R49, R50). -/
theorem storeFrom_completed (hx : t.exc = 0) (h : storeFrom value base imm16 w s = .next t) :
    ((effAddr s base imm16).toNat < 0x80000000 ∧
      (effAddr s base imm16).toNat + widthBytes w ≤ s.launch.memLen) ∧
      (effAddr s base imm16).toNat % widthBytes w = 0 ∧
      t = { s with
        mem := memWrite s.mem (effAddr s base imm16).toNat (widthBytes w) (s.getReg value)
        pc := s.pc + 4 } := by
  have hnot : ∀ e, raise e s ≠ .next t := fun e he => ne_with_exc_of_running hx e (raise_eq_next.mp he)
  unfold storeFrom at h
  obtain ⟨-, hst⟩ | ⟨-, -, hst⟩ | ⟨-, -, -, hst⟩ | ⟨hin, hal, -, hst⟩ :=
    store_cases s (effAddr s base imm16) (widthBytes w) (s.getReg value) <;> rw [hst] at h
  · exact absurd h (hnot _)
  · exact absurd h (hnot _)
  · exact absurd h (hnot _)
  · exact ⟨hin, hal, advance_eq_next.mp h⟩

/-- After a store that completes, a load of the same width from the same place completes with the bytes stored. -/
theorem loadTo_of_storeFrom_completed (hx : t.exc = 0) (h : storeFrom value base imm16 w s = .next t) :
    loadTo rd base imm16 w f t =
      writeAndAdvance rd (f (((s.getReg value).setWidth (8 * widthBytes w)).setWidth 32)) t := by
  obtain ⟨hin, hal, ht⟩ := storeFrom_completed hx h
  have haddr : effAddr t base imm16 = effAddr s base imm16 := by rw [ht]; rfl
  have hlaunch : t.launch = s.launch := by rw [ht]
  have hread : memRead t.mem (effAddr s base imm16).toNat (widthBytes w) =
      ((s.getReg value).setWidth (8 * widthBytes w)).setWidth 32 := by rw [ht, memRead_memWrite_self]
  rw [loadTo_completes (by rwa [haddr, hlaunch]) (by rwa [haddr]), haddr, hread]

end CheckedAccess

/-- Settles O47, by the checks of the load that each instruction is. -/
theorem loadsRaise : Obligations.LoadsRaise := by
  intro rd rs1 imm16 s
  refine ⟨fun hout => ⟨?lb, ?lbu⟩, fun hout => ⟨?lh, ?lhu⟩, fun hneg hlen hmod => ⟨?lhOdd, ?lhuOdd⟩,
    fun hout => ?lw, fun hneg hlen hmod => ?lwOdd⟩
  case lb | lbu | lh | lhu | lw => exact loadTo_out_of_bounds hout
  case lhOdd | lhuOdd | lwOdd => exact loadTo_misaligned ⟨hneg, hlen⟩ hmod

/-- Settles O49, by the checks of the store that each instruction is; a byte is always aligned. -/
theorem storesRaise : Obligations.StoresRaise := by
  intro rs1 rs2 imm16 s
  refine ⟨fun hout => ?sb, fun hout => ?sh, fun hout => ?sw, fun hneg hlen hmod => ?shOdd,
    fun hneg hlen hmod => ?swOdd, fun hneg hlen hro => ?sbRo, fun hneg hlen hal hro => ?shRo,
    fun hneg hlen hal hro => ?swRo⟩
  case sb | sh | sw => exact storeFrom_out_of_bounds hout
  case shOdd | swOdd => exact storeFrom_misaligned ⟨hneg, hlen⟩ hmod
  case sbRo => exact storeFrom_readOnly ⟨hneg, hlen⟩ (Nat.mod_one _) ⟨0, Nat.one_pos, hro⟩
  case shRo | swRo => exact storeFrom_readOnly ⟨hneg, hlen⟩ hal hro

/-- Settles O50: the load passes the checks the store passed, and reads back the word it wrote. -/
theorem loadReturnsTheLatestStore : Obligations.LoadReturnsTheLatestStore := by
  intro rd rs1 rs2 imm16 s t _ h hx
  have hword : ((s.getReg rs1).setWidth (8 * widthBytes .word)).setWidth 32 = s.getReg rs1 := by
    rw [widthBytes, BitVec.setWidth_eq, BitVec.setWidth_eq]
  have hload : exec (.lw rd rs2 imm16) t =
      writeAndAdvance rd (((s.getReg rs1).setWidth (8 * widthBytes .word)).setWidth 32) t :=
    loadTo_of_storeFrom_completed hx h
  exact computes_of_writeAndAdvance (opcodeOf_pack ..) (hword ▸ hload)

/-! ## The fetch checks -/

theorem step_of_fetch_error {s : State} {e : Exc} (hs : s.exc = 0) (hl : s.launch.wellFormed = true)
    (hf : fetch s = .error e) : step s = raise e s := by
  simp [step, hs, hl, hf]

/-- Settles O13: each clause is one outcome of the fetch, since memory ends below 2^31 (R263). -/
theorem fetchChecksRaise : Obligations.FetchChecksRaise := by
  intro s hs hl
  obtain ⟨hmax, -⟩ := (wellFormed_iff _).mp hl
  refine ⟨fun hout => ?_, fun hin hmod => ?_, fun hin hal hx => ?_⟩
  · have hf : fetch s = .error .pcbounds := by grind [fetch_cases s]
    exact step_of_fetch_error hs hl hf
  · have hf : fetch s = .error .pcalign := by grind [fetch_cases s]
    exact step_of_fetch_error hs hl hf
  · have hf : fetch s = .error .pcexec := by grind [fetch_cases s]
    exact step_of_fetch_error hs hl hf

end Sys2Proof.Machine

namespace Sys2Proof

/-! ## The opcode map -/

/-- What the opcode map answers: an assigned opcode gives a well-formed instruction whose word is packed from that opcode and some
operands; any other opcode gives `invalid` (R75, R77, R78). The only case split over the 128 opcodes. -/
theorem instrOf_cases (op : BitVec 7) (rd rs1 rs2 : Reg) (imm16 : BitVec 16) (rest : BitVec 25) :
    (assignedOpcodes.contains op = true ∧ (instrOf op rd rs1 rs2 imm16 rest).wellFormed = true ∧
      ∃ d s1 s2 imm, encode (instrOf op rd rs1 rs2 imm16 rest) = pack op d s1 s2 imm) ∨
    (assignedOpcodes.contains op = false ∧ instrOf op rd rs1 rs2 imm16 rest = .invalid op rest) := by
  unfold instrOf
  split
  case h_53 => exact .inr ⟨by simp_all [assignedOpcodes], rfl⟩
  all_goals exact .inl ⟨by decide, rfl, _, _, _, _, rfl⟩

/-- An opcode that is not assigned is mapped to `invalid`, whatever the fields hold (R77, R78). -/
theorem instrOf_eq_invalid {op : BitVec 7} (h : assignedOpcodes.contains op = false) (rd rs1 rs2 : Reg)
    (imm16 : BitVec 16) (rest : BitVec 25) : instrOf op rd rs1 rs2 imm16 rest = .invalid op rest := by
  obtain ⟨hassigned, -⟩ | ⟨-, hinvalid⟩ := instrOf_cases op rd rs1 rs2 imm16 rest
  · exact absurd hassigned (ne_true_of_eq_false h)
  · exact hinvalid

theorem instrOf_wellFormed (op : BitVec 7) (rd rs1 rs2 : Reg) (imm16 : BitVec 16) (rest : BitVec 25) :
    (instrOf op rd rs1 rs2 imm16 rest).wellFormed = true := by
  obtain ⟨-, hwf, -⟩ | ⟨hun, hinvalid⟩ := instrOf_cases op rd rs1 rs2 imm16 rest
  · exact hwf
  · rw [hinvalid, Instr.wellFormed, hun, Bool.not_false]

theorem opcodeOf_encode_instrOf (op : BitVec 7) (rd rs1 rs2 : Reg) (imm16 : BitVec 16) (rest : BitVec 25) :
    opcodeOf (encode (instrOf op rd rs1 rs2 imm16 rest)) = op := by
  obtain ⟨-, -, _, _, _, _, hpack⟩ | ⟨-, hinvalid⟩ := instrOf_cases op rd rs1 rs2 imm16 rest
  · rw [hpack, opcodeOf_pack]
  · rw [hinvalid, encode, opcodeOf_append]

/-! ## Decoding and encoding -/

/-- The word of an unassigned opcode decodes to `invalid` with the word's own bits (R81). -/
theorem decode_append {op : BitVec 7} (h : assignedOpcodes.contains op = false) (rest : BitVec 25) :
    decode (rest ++ op) = .invalid op rest := by
  rw [decode, opcodeOf_append, restOf_append, instrOf_eq_invalid h]

/-- Settles O2: the word of an assigned opcode is packed, so decoding hands the opcode map that opcode and the instruction's own
operands; an `invalid` carries all the bits of its word. -/
theorem decodeOfEncodeIsTheInstruction : Obligations.DecodeOfEncodeIsTheInstruction := by
  intro i hwf
  cases i with
  | invalid op rest => exact decode_append (by simpa [Instr.wellFormed] using hwf) rest
  | and | or | xor | sub | min | minu | max | maxu | slt | sltu => exact decode_pack ..
  | mul | mulh | mulhu | mulhsu | div | divu | rem | remu => exact decode_pack ..
  | revb | revh | clz | ctz | pcnt | ebreak => exact decode_pack ..
  | andi | ori | xori | sll | srl | sra | add | slti | sltiu | lui | auipc => exact decode_pack ..
  | lb | lbu | lh | lhu | lw | sb | sh | sw => exact decode_pack ..
  | jal | jalr | beq | bne | blt | bltu | bge | bgeu | ecall => exact decode_pack ..

/-- Settles O3: a decoded word is an answer of the opcode map for its own opcode, and O2 holds of it. -/
theorem everyWordDecodesToItsCanonicalForm : Obligations.EveryWordDecodesToItsCanonicalForm := fun w =>
  have hwf : (decode w).wellFormed = true := instrOf_wellFormed ..
  ⟨hwf, opcodeOf_encode_instrOf .., decodeOfEncodeIsTheInstruction (decode w) hwf⟩

/-! ## The numeric form of a word -/

theorem toNat_append_eq_add {m n : Nat} (x : BitVec m) (y : BitVec n) : (x ++ y).toNat = x.toNat * 2 ^ n + y.toNat := by
  rw [BitVec.toNat_append, ← Nat.shiftLeft_add_eq_or_of_lt y.isLt, Nat.shiftLeft_eq]

/-- The fields of a word lie side by side, the opcode lowest (R71). -/
theorem toNat_pack (op : BitVec 7) (rd rs1 rs2 : Reg) (imm16 : BitVec 16) :
    (pack op rd rs1 rs2 imm16).toNat =
      op.toNat + 128 * rd.bits.toNat + 1024 * rs1.bits.toNat + 8192 * rs2.bits.toNat + 65536 * imm16.toNat := by
  simp only [pack, toNat_append_eq_add]
  omega

theorem decode_numericForm (op : BitVec 7) (rd rs1 rs2 : Reg) (imm16 : BitVec 16) :
    decode (BitVec.ofNat 32
      (op.toNat + 128 * rd.bits.toNat + 1024 * rs1.bits.toNat + 8192 * rs2.bits.toNat + 65536 * imm16.toNat)) =
      instrOf op rd rs1 rs2 imm16 (imm16 ++ rs2.bits ++ rs1.bits ++ rd.bits) := by
  have hrest : restOf (pack op rd rs1 rs2 imm16) = imm16 ++ rs2.bits ++ rs1.bits ++ rd.bits := restOf_append _ op
  rw [← toNat_pack, BitVec.ofNat_toNat, BitVec.setWidth_eq, decode_pack, hrest]

/-- Settles O4: the numeric form hands its opcode and fields to the opcode map, which is asked for each assigned opcode in the
order of R75; the 76 others are not assigned. -/
theorem opcodeMapDecodesEveryWord : Obligations.OpcodeMapDecodesEveryWord := by
  intro rd rs1 rs2 imm16 w
  have hw : ∀ op : BitVec 7, decode (w op.toNat) =
      instrOf op rd rs1 rs2 imm16 (imm16 ++ rs2.bits ++ rs1.bits ++ rd.bits) := fun op =>
    decode_numericForm op rd rs1 rs2 imm16
  refine ⟨?logicCompare, ?mulDiv, ?bitManip, ?immediateAlu, ?loadStore, ?control, fun op hop => ?unassigned⟩
  case logicCompare =>
    exact ⟨hw 0x04, hw 0x05, hw 0x06, hw 0x07, hw 0x08, hw 0x09, hw 0x0a, hw 0x0b, hw 0x0c, hw 0x0d⟩
  case mulDiv => exact ⟨hw 0x10, hw 0x11, hw 0x12, hw 0x13, hw 0x14, hw 0x15, hw 0x16, hw 0x17⟩
  case bitManip => exact ⟨hw 0x18, hw 0x19, hw 0x1a, hw 0x1b, hw 0x1c, hw 0x3f⟩
  case immediateAlu =>
    exact ⟨hw 0x44, hw 0x45, hw 0x46, hw 0x48, hw 0x49, hw 0x4a, hw 0x4b, hw 0x4c, hw 0x4d, hw 0x4e, hw 0x4f⟩
  case loadStore => exact ⟨hw 0x50, hw 0x51, hw 0x52, hw 0x53, hw 0x54, hw 0x55, hw 0x56, hw 0x57⟩
  case control => exact ⟨hw 0x58, hw 0x59, hw 0x5a, hw 0x5b, hw 0x5c, hw 0x5d, hw 0x5e, hw 0x5f, hw 0x7f⟩
  case unassigned =>
    obtain ⟨hlt, hun⟩ : op < 2 ^ 7 ∧ assignedOpcodes.contains (BitVec.ofNat 7 op) = false := by
      revert op
      decide
    rw [← instrOf_eq_invalid hun rd rs1 rs2 imm16, ← hw, BitVec.toNat_ofNat, Nat.mod_eq_of_lt hlt]

/-- Settles O5: each of the ten words evaluates to its instruction. -/
theorem specWordsDecode : Obligations.SpecWordsDecode :=
  ⟨rfl, rfl, rfl, rfl, rfl, rfl, rfl, rfl, rfl, rfl⟩

end Sys2Proof

namespace Sys2Proof.Machine

/-! ## The sign-extended immediate -/

/-- The sign of a word's immediate is the word's highest bit (R71). -/
theorem msb_imm16Of (w : Word) : (imm16Of w).msb = w.getLsbD 31 := by
  rw [BitVec.msb_eq_getLsbD_last, imm16Of, BitVec.getLsbD_extractLsb', decide_eq_true (by decide), Bool.true_and]

/-- The bits of i32: the field, and above it copies of its sign (R73). -/
theorem getLsbD_imm32 (imm16 : BitVec 16) {k : Nat} (hk : k < 32) :
    (imm32 imm16).getLsbD k = if k < 16 then imm16.getLsbD k else imm16.msb := by
  rw [imm32, BitVec.getLsbD_signExtend, decide_eq_true hk, Bool.true_and]

theorem imm32_low (imm16 : BitVec 16) : (imm32 imm16).extractLsb' 0 16 = imm16 := by
  ext k hk
  rw [BitVec.getElem_extractLsb', Nat.zero_add, getLsbD_imm32 _ (by omega), if_pos hk, BitVec.getLsbD_eq_getElem hk]

/-- Settles O6, bit by bit; a wider sign extension keeps the signed value. -/
theorem immediateIsSignExtended : Obligations.ImmediateIsSignExtended := by
  refine fun w => ⟨imm32_low _, fun k hk hk32 => ?_, BitVec.toInt_signExtend_of_le (by decide)⟩
  rw [getLsbD_imm32 _ hk32, if_neg (Nat.not_lt.mpr hk), msb_imm16Of]

end Sys2Proof.Machine

namespace Sys2Proof.Machine

/-! ## Logic, subtract, minimum, maximum, compare -/

/-- An instruction that picks one of two words by a condition of the model computes the word that the comparison behind the
condition picks (R10). -/
theorem computes_ite_of_writeAndAdvance {op : BitVec 7} {i : Instr} {rd : Reg} {x y : Word} {s : State} {c : Bool} {P : Prop}
    [Decidable P] (hc : c = true ↔ P) (ho : opcodeOf (encode i) = op)
    (h : exec i s = writeAndAdvance rd (if c then x else y) s) : Computes op i rd (if P then x else y) s :=
  computes_of_writeAndAdvance ho (by simpa only [hc] using h)

/-- Settles O29: each instruction writes its result and advances. -/
theorem logicAndSubtractResults : Obligations.LogicAndSubtractResults := by
  intro rd rs1 rs2 s a b
  refine ⟨?and, ?or, ?xor, ?sub⟩
  case and | or | xor | sub => exact computes_of_writeAndAdvance (opcodeOf_pack ..) rfl

/-- Settles O30: each instruction writes the operand that its condition picks, and the condition is the comparison of R105 to
R108. -/
theorem minimumAndMaximumResults : Obligations.MinimumAndMaximumResults := by
  intro rd rs1 rs2 s a b
  refine ⟨?min, ?minu, ?max, ?maxu⟩
  case min => exact computes_ite_of_writeAndAdvance (ltSigned_iff a b) (opcodeOf_pack ..) rfl
  case minu => exact computes_ite_of_writeAndAdvance (ltUnsigned_iff a b) (opcodeOf_pack ..) rfl
  case max => exact computes_ite_of_writeAndAdvance (geSigned_iff a b) (opcodeOf_pack ..) rfl
  case maxu => exact computes_ite_of_writeAndAdvance (geUnsigned_iff a b) (opcodeOf_pack ..) rfl

/-- Settles O31: a truth word is 1 or 0 as its condition decides. -/
theorem setIfLessThanResults : Obligations.SetIfLessThanResults := by
  intro rd rs1 rs2 s a b
  refine ⟨?slt, ?sltu⟩
  case slt => exact computes_ite_of_writeAndAdvance (ltSigned_iff a b) (opcodeOf_pack ..) rfl
  case sltu => exact computes_ite_of_writeAndAdvance (ltUnsigned_iff a b) (opcodeOf_pack ..) rfl

end Sys2Proof.Machine

namespace Sys2Proof.Machine

/-! ## The results of multiply, divide and remainder -/

/-- The signed high word of a product of 64 bits is its floor by 2^32 (R122). -/
theorem toInt_highWord {p : Int} (hlo : -2 ^ 63 ≤ p) (hhi : p < 2 ^ 63) : (highWord p).toInt = p / 2 ^ 32 :=
  BitVec.toInt_ofInt_eq_self (by decide) (Int.le_ediv_of_mul_le (by decide) hlo) (Int.ediv_lt_of_lt_mul (by decide) hhi)

/-- The unsigned high word of a product of 64 bits is its quotient by 2^32 (R123). -/
theorem toNat_highWord {p : Nat} (hp : p < 2 ^ 64) : (highWord (p : Int)).toNat = p / 2 ^ 32 := by
  have hword : highWord (p : Int) = BitVec.ofNat 32 (p / 2 ^ 32) := BitVec.ofInt_natCast ..
  have hfits : p / 2 ^ 32 < 2 ^ 32 := Nat.div_lt_of_lt_mul hp
  rw [hword, BitVec.toNat_ofNat, Nat.mod_eq_of_lt hfits]

theorem toInt_highWord_mulh (a b : Word) : (highWord (a.toInt * b.toInt)).toInt = a.toInt * b.toInt / 2 ^ 32 :=
  have hlo : -2 ^ 62 ≤ a.toInt * b.toInt := BitVec.le_toInt_mul_toInt
  have hhi : a.toInt * b.toInt ≤ 2 ^ 62 := BitVec.toInt_mul_toInt_le
  toInt_highWord (by omega) (by omega)

theorem toNat_highWord_mulhu (a b : Word) :
    (highWord ((a.toNat * b.toNat : Nat) : Int)).toNat = a.toNat * b.toNat / 2 ^ 32 :=
  toNat_highWord BitVec.toNat_mul_toNat_lt

theorem toInt_highWord_mulhsu (a b : Word) :
    (highWord (a.toInt * (b.toNat : Int))).toInt = a.toInt * (b.toNat : Int) / 2 ^ 32 :=
  have hb : (b.toNat : Int) < 2 ^ 32 := by exact_mod_cast b.isLt
  have hlo : -2 ^ 31 * (b.toNat : Int) ≤ a.toInt * b.toNat :=
    Int.mul_le_mul_of_nonneg_right (BitVec.le_toInt a) (Int.natCast_nonneg _)
  have hhi : a.toInt * b.toNat ≤ 2 ^ 31 * (b.toNat : Int) :=
    Int.mul_le_mul_of_nonneg_right BitVec.toInt_lt.le (Int.natCast_nonneg _)
  toInt_highWord (by omega) (by omega)

theorem toNat_mulLow (a b : Word) : (mulLow a b).toNat = a.toNat * b.toNat % 2 ^ 32 := BitVec.toNat_ofNat ..

theorem mulLow_eq_mul (a b : Word) : mulLow a b = a * b :=
  BitVec.eq_of_toNat_eq ((toNat_mulLow a b).trans (BitVec.toNat_mul a b).symm)

/-- The low word is also that of the signed product (R121). -/
theorem toNat_mulLow_signed (a b : Word) : ((mulLow a b).toNat : Int) = a.toInt * b.toInt % 2 ^ 32 := by
  have hofInt : mulLow a b = BitVec.ofInt 32 (a.toInt * b.toInt) := by
    rw [mulLow_eq_mul, BitVec.ofInt_mul, BitVec.ofInt_toInt, BitVec.ofInt_toInt]
  rw [hofInt, BitVec.toNat_ofInt, Int.toNat_of_nonneg (Int.emod_nonneg _ (by decide))]
  rfl

theorem ofInt_tdiv (a b : Word) : BitVec.ofInt 32 (a.toInt.tdiv b.toInt) = a.sdiv b :=
  BitVec.eq_of_toInt_eq ((BitVec.toInt_ofInt _).trans (BitVec.toInt_sdiv a b).symm)

/-- Lean's own signed division has the results of R125 for the divisor 0 and for the overflow, too. -/
theorem divSigned_eq_sdiv (a b : Word) : divSigned a b = a.sdiv b := by
  unfold divSigned
  split
  case isTrue hb => rw [hb]; exact BitVec.sdiv_zero.symm
  case isFalse =>
    split
    case isTrue hover =>
      obtain ⟨ha, hb⟩ := hover
      rw [ha, hb]
      exact BitVec.intMin_sdiv_neg_one.symm
    case isFalse => exact ofInt_tdiv a b

theorem divUnsigned_eq_udiv (a b : Word) : divUnsigned a b = a / b := by
  unfold divUnsigned
  split
  case isTrue hb => rw [hb]; exact BitVec.udiv_zero.symm
  case isFalse => exact BitVec.udiv_def.symm

theorem remSigned_zero (a : Word) : remSigned a 0 = 0 := rfl

theorem remSigned_eq_srem (a : Word) {b : Word} (hb : b ≠ 0) : remSigned a b = a.srem b := by
  rw [remSigned, if_neg hb, Int.mul_comm, ← Int.tmod_def, ← BitVec.toInt_srem, BitVec.ofInt_toInt]

theorem remUnsigned_zero (a : Word) : remUnsigned a 0 = 0 := rfl

theorem remUnsigned_eq_umod (a : Word) {b : Word} (hb : b ≠ 0) : remUnsigned a b = a % b := by
  rw [remUnsigned, if_neg hb, BitVec.umod_def]

/-- A signed remainder that is not 0 has the sign of the dividend (R127). -/
theorem toInt_srem_neg_iff {a b : Word} (hr : a.srem b ≠ 0) : (a.srem b).toInt < 0 ↔ a.toInt < 0 := by
  have hmsb : (a.srem b).msb = a.msb := by rw [BitVec.msb_srem, decide_eq_true hr, Bool.and_true]
  simpa only [BitVec.msb_eq_toInt, decide_eq_decide] using hmsb

/-- Quotient times divisor plus remainder is the dividend modulo 2^32; in the overflow the product wraps (log 21). -/
theorem sdiv_mul_add_srem (a b : Word) : a.sdiv b * b + a.srem b = a :=
  calc a.sdiv b * b + a.srem b
      = BitVec.ofInt 32 (a.toInt.tdiv b.toInt * b.toInt + a.toInt.tmod b.toInt) := by
        rw [BitVec.ofInt_add, BitVec.ofInt_mul, ofInt_tdiv, BitVec.ofInt_toInt, ← BitVec.toInt_srem, BitVec.ofInt_toInt]
    _ = a := by rw [Int.tdiv_mul_add_tmod, BitVec.ofInt_toInt]

theorem udiv_mul_add_umod (a b : Word) : a / b * b + a % b = a := by
  rw [BitVec.udiv_def, BitVec.umod_def]
  calc BitVec.ofNat 32 (a.toNat / b.toNat) * b + BitVec.ofNat 32 (a.toNat % b.toNat)
      = BitVec.ofNat 32 (a.toNat / b.toNat * b.toNat + a.toNat % b.toNat) := by
        rw [BitVec.ofNat_add, BitVec.ofNat_mul, BitVec.ofNat_toNat, BitVec.setWidth_eq]
    _ = a := by rw [Nat.div_add_mod', BitVec.ofNat_toNat, BitVec.setWidth_eq]

/-! ## Multiply, divide, remainder -/

theorem writeAndAdvance_getReg {rd : Reg} {v : Word} {s t : State} (hrd : rd ≠ .Z) (h : writeAndAdvance rd v s = .next t) :
    t.getReg rd = v := by
  rw [writeAndAdvance_eq_next.mp h, State.getReg_with_pc, State.getReg_setReg_self s v hrd]

/-- Settles O32: each instruction writes its result, and the high words fit their readings. -/
theorem multiplyResults : Obligations.MultiplyResults := by
  intro rd rs1 rs2 s a b
  refine ⟨⟨_, ?mul, toNat_mulLow a b⟩, ⟨_, ?mulh, toInt_highWord_mulh a b⟩, ⟨_, ?mulhu, toNat_highWord_mulhu a b⟩,
    ⟨_, ?mulhsu, toInt_highWord_mulhsu a b⟩⟩
  case mul | mulh | mulhu | mulhsu => exact computes_of_writeAndAdvance (opcodeOf_pack ..) rfl

/-- Settles O33: the high word is the product's quotient by 2^32, the low word its remainder. -/
theorem highAndLowWordMakeTheProduct : Obligations.HighAndLowWordMakeTheProduct := by
  intro rd rs1 rs2 s lo hi hu hrd hmul hmulh hmulhu
  have hlo : lo.getReg rd = mulLow (s.getReg rs1) (s.getReg rs2) := writeAndAdvance_getReg hrd hmul
  refine ⟨?signed, ?unsigned⟩
  case signed =>
    rw [writeAndAdvance_getReg hrd hmulh, hlo, toInt_highWord_mulh, toNat_mulLow_signed, Int.ediv_mul_add_emod]
  case unsigned =>
    rw [writeAndAdvance_getReg hrd hmulhu, hlo, toNat_highWord_mulhu, toNat_mulLow, Nat.div_add_mod']

/-- Settles O34: div computes Lean's signed quotient, which is exact but for the divisor 0 and the overflow. -/
theorem signedDivideResults : Obligations.SignedDivideResults := by
  intro rd rs1 rs2 s a b
  have hdiv : Computes 0x14 (.div rd rs1 rs2) rd (a.sdiv b) s :=
    divSigned_eq_sdiv a b ▸ computes_of_writeAndAdvance (opcodeOf_pack ..) rfl
  refine ⟨fun hb => ?byZero, fun ha hb => ?overflow, fun _ hover => ⟨_, hdiv, ?rounded⟩⟩
  case byZero =>
    have hzero : a.sdiv b = 0 := by rw [hb]; exact BitVec.sdiv_zero
    exact hzero ▸ hdiv
  case overflow =>
    have hwrap : a.sdiv b = 0x80000000 := by rw [ha, hb]; exact BitVec.intMin_sdiv_neg_one
    exact hwrap ▸ hdiv
  case rounded => exact BitVec.toInt_sdiv_of_ne_or_ne a b (not_and_or.mp hover)

/-- Settles O35: rem computes 0 for the divisor 0 and else Lean's signed remainder. -/
theorem signedRemainderResults : Obligations.SignedRemainderResults := by
  intro rd rs1 rs2 s a b
  refine ⟨remSigned a b, computes_of_writeAndAdvance (opcodeOf_pack ..) rfl, ?_⟩
  by_cases hb : b = 0
  · rw [hb, remSigned_zero]
    exact ⟨fun _ => rfl, fun h => absurd rfl h, fun h => absurd rfl h⟩
  · rw [remSigned_eq_srem a hb]
    refine ⟨fun h => absurd h hb, fun _ => ?magnitude, toInt_srem_neg_iff⟩
    case magnitude => rw [BitVec.toInt_srem, Int.natAbs_tmod]

/-- Settles O36: divu and remu compute 0 for the divisor 0 and else the quotient and remainder of the unsigned readings. -/
theorem unsignedDivideAndRemainderResults : Obligations.UnsignedDivideAndRemainderResults := by
  intro rd rs1 rs2 s a b
  refine ⟨⟨divUnsigned a b, computes_of_writeAndAdvance (opcodeOf_pack ..) rfl, ?quotient⟩,
    ⟨remUnsigned a b, computes_of_writeAndAdvance (opcodeOf_pack ..) rfl, ?remainder⟩⟩
  case quotient =>
    split
    case isTrue hb => rw [divUnsigned_eq_udiv, hb]; exact congrArg _ BitVec.udiv_zero
    case isFalse => rw [divUnsigned_eq_udiv, BitVec.toNat_udiv]
  case remainder =>
    split
    case isTrue hb => rw [hb, remUnsigned_zero]; rfl
    case isFalse hb => rw [remUnsigned_eq_umod a hb, BitVec.toNat_umod]

/-- Settles O37: for a divisor other than 0 the results are Lean's quotients and remainders. -/
theorem quotientTimesDivisorPlusRemainder : Obligations.QuotientTimesDivisorPlusRemainder := by
  intro rd rs1 rs2 s q r qu ru hrd hb hdiv hrem hdivu hremu
  refine ⟨?signed, ?unsigned⟩
  case signed =>
    rw [writeAndAdvance_getReg hrd hdiv, writeAndAdvance_getReg hrd hrem, divSigned_eq_sdiv, remSigned_eq_srem _ hb,
      sdiv_mul_add_srem]
  case unsigned =>
    rw [writeAndAdvance_getReg hrd hdivu, writeAndAdvance_getReg hrd hremu, divUnsigned_eq_udiv, remUnsigned_eq_umod _ hb,
      udiv_mul_add_umod]

end Sys2Proof.Machine

namespace Sys2Proof.Machine

/-! ## Byte and half word reversal -/

/-- Byte k of the reversed word is byte 3 - k of the source (R141). -/
theorem reverseBytes_byte (v : Word) {k : Nat} (hk : k < 4) :
    (reverseBytes v).extractLsb' (8 * k) 8 = v.extractLsb' (24 - 8 * k) 8 := by
  match k, hk with
  | 0, _ => exact BitVec.extractLsb'_append_eq_right
  | 1, _ =>
    exact (BitVec.extractLsb'_append_eq_of_le (by decide)).trans BitVec.extractLsb'_append_eq_right
  | 2, _ =>
    exact (BitVec.extractLsb'_append_eq_of_le (by decide)).trans
      ((BitVec.extractLsb'_append_eq_of_le (by decide)).trans BitVec.extractLsb'_append_eq_right)
  | 3, _ =>
    exact (BitVec.extractLsb'_append_eq_of_le (by decide)).trans
      ((BitVec.extractLsb'_append_eq_of_le (by decide)).trans BitVec.extractLsb'_append_eq_left)

theorem reverseHalves_low (v : Word) : (reverseHalves v).extractLsb' 0 16 = v.extractLsb' 16 16 :=
  BitVec.extractLsb'_append_eq_right

theorem reverseHalves_high (v : Word) : (reverseHalves v).extractLsb' 16 16 = v.extractLsb' 0 16 :=
  BitVec.extractLsb'_append_eq_left

/-- The half words change places twice (R142). -/
theorem reverseHalves_reverseHalves (v : Word) : reverseHalves (reverseHalves v) = v := by
  rw [reverseHalves, reverseHalves_low, reverseHalves_high]
  exact BitVec.extractLsb'_append_extractLsb' (w := 16) (len := 16)

/-- Settles O38: revb writes the reversed word. -/
theorem reverseBytesResult : Obligations.ReverseBytesResult := fun _ _ s =>
  ⟨_, computes_of_writeAndAdvance (opcodeOf_pack ..) rfl, fun _ hk => reverseBytes_byte (s.getReg _) hk⟩

/-- Settles O39: revh writes the swapped word, and swapping twice is the identity. -/
theorem reverseHalfWordsResult : Obligations.ReverseHalfWordsResult := by
  intro rd rs1 s
  have hrevh (t : State) : Computes 0x19 (.revh rd rs1) rd (reverseHalves (t.getReg rs1)) t :=
    computes_of_writeAndAdvance (opcodeOf_pack ..) rfl
  refine ⟨_, hrevh s, reverseHalves_low _, reverseHalves_high _, fun t ht => ?again⟩
  case again =>
    have hback : reverseHalves (t.getReg rs1) = s.getReg rs1 := by rw [ht, reverseHalves_reverseHalves]
    exact hback ▸ hrevh t

/-! ## Bit counts -/

/-- Of the `n` bits `bit 0` to `bit (n - 1)`, `c` are 0 before the first that is 1; all `n` when none is. -/
structure IsZeroRun (bit : Nat → Bool) (n c : Nat) : Prop where
  le : c ≤ n
  zeros : ∀ k, k < c → bit k = false
  one : c < n → bit c = true

section ZeroRun

variable {bit : Nat → Bool} {n c : Nat}

theorem IsZeroRun.nil : IsZeroRun bit 0 0 where
  le := Nat.le_refl 0
  zeros _ hk := absurd hk (Nat.not_lt_zero _)
  one h := absurd h (Nat.lt_irrefl 0)

theorem IsZeroRun.stop (h : bit 0 = true) : IsZeroRun bit n 0 where
  le := Nat.zero_le n
  zeros _ hk := absurd hk (Nat.not_lt_zero _)
  one _ := h

theorem IsZeroRun.cons (h : bit 0 = false) (hrun : IsZeroRun (fun k => bit (k + 1)) n c) :
    IsZeroRun bit (n + 1) (c + 1) where
  le := Nat.succ_le_succ hrun.le
  zeros
    | 0, _ => h
    | k + 1, hk => hrun.zeros k (Nat.lt_of_succ_lt_succ hk)
  one hc := hrun.one (Nat.lt_of_succ_lt_succ hc)

end ZeroRun

/-- The leading zeros are a run from bit `n - 1` down (R143). -/
theorem leadingZeros_isZeroRun (v : Word) (n : Nat) :
    IsZeroRun (fun k => v.getLsbD (n - 1 - k)) n (leadingZeros v n) := by
  induction n with
  | zero => exact .nil
  | succ n ih =>
    rw [leadingZeros]
    split
    case isTrue hone => exact .stop hone
    case isFalse hzero =>
      refine .cons (Bool.eq_false_iff.mpr hzero) ?rest
      case rest => simpa only [Nat.add_sub_cancel, Nat.sub_add_eq, Nat.sub_right_comm] using ih

/-- The trailing zeros are a run from bit `32 - n` up (R144). -/
theorem trailingZeros_isZeroRun (v : Word) {n : Nat} (hn : n ≤ 32) :
    IsZeroRun (fun k => v.getLsbD (32 - n + k)) n (trailingZeros v n) := by
  induction n with
  | zero => exact .nil
  | succ n ih =>
    have hnext (k : Nat) : 32 - (n + 1) + (k + 1) = 32 - n + k := by omega
    rw [trailingZeros]
    split
    case isTrue hone => exact .stop hone
    case isFalse hzero =>
      refine .cons (Bool.eq_false_iff.mpr hzero) ?rest
      case rest => simpa only [hnext] using ih (by omega)

/-- The set bits below `n`, counted by listing them (R145). -/
theorem setBits_eq_length_filter (v : Word) (n : Nat) :
    setBits v n = ((List.range n).filter fun k => v.getLsbD k).length := by
  induction n with
  | zero => rfl
  | succ n ih =>
    rw [setBits, ih, List.range_succ, List.filter_append, List.length_append]
    cases h : v.getLsbD n <;> simp [h]

theorem setBits_le (v : Word) (n : Nat) : setBits v n ≤ n := by
  have hle := List.length_filter_le (fun k => v.getLsbD k) (List.range n)
  rwa [← setBits_eq_length_filter, List.length_range] at hle

/-- A count of at most 32 fits a word. -/
theorem toNat_count {c : Nat} (hc : c ≤ 32) : (BitVec.ofNat 32 c).toNat = c :=
  (BitVec.toNat_ofNat ..).trans (Nat.mod_eq_of_lt (Nat.lt_of_le_of_lt hc (by decide)))

/-- An instruction that writes the length of a run of zeros among 32 bits computes a word of that length. -/
theorem computes_isZeroRun {op : BitVec 7} {i : Instr} {rd : Reg} {s : State} {bit : Nat → Bool} {c : Nat}
    (hrun : IsZeroRun bit 32 c) (ho : opcodeOf (encode i) = op)
    (h : exec i s = writeAndAdvance rd (BitVec.ofNat 32 c) s) :
    ∃ n : Word, Computes op i rd n s ∧ IsZeroRun bit 32 n.toNat :=
  ⟨_, computes_of_writeAndAdvance ho h, (toNat_count hrun.le).symm ▸ hrun⟩

/-- Settles O40: each instruction writes the length of the run of zeros from its end of the word. -/
theorem countZerosResults : Obligations.CountZerosResults := by
  intro rd rs1 s v
  refine ⟨?clz, ?ctz⟩
  case clz =>
    obtain ⟨n, hclz, hrun⟩ := computes_isZeroRun (i := .clz rd rs1) (s := s) (leadingZeros_isZeroRun v 32)
      (opcodeOf_pack ..) rfl
    exact ⟨n, hclz, hrun.le, hrun.zeros, hrun.one⟩
  case ctz =>
    have hfromBit0 : IsZeroRun v.getLsbD 32 (trailingZeros v 32) := by
      simpa only [Nat.sub_self, Nat.zero_add] using trailingZeros_isZeroRun v (Nat.le_refl 32)
    obtain ⟨n, hctz, hrun⟩ := computes_isZeroRun (i := .ctz rd rs1) (s := s) hfromBit0 (opcodeOf_pack ..) rfl
    exact ⟨n, hctz, hrun.le, hrun.zeros, hrun.one⟩

/-- Settles O41: pcnt writes the number of listed set bits, which fits a word. -/
theorem countSetBitsResult : Obligations.CountSetBitsResult := fun _ _ _ =>
  ⟨_, computes_of_writeAndAdvance (opcodeOf_pack ..) rfl,
    (toNat_count (setBits_le _ 32)).trans (setBits_eq_length_filter _ 32)⟩

end Sys2Proof.Machine

namespace Sys2Proof.Machine

/-! ## Immediates and shifts -/

/-- The amount that a shift takes from its immediate is the field modulo 32: it lies in the low half of i32 (R73, R154). -/
theorem shiftAmount_imm32 (imm16 : BitVec 16) : shiftAmount (imm32 imm16) = imm16.toNat % 32 := by
  have hlow : (imm32 imm16).toNat % 2 ^ 16 = imm16.toNat :=
    (BitVec.extractLsb'_toNat 0 16 _).symm.trans (congrArg BitVec.toNat (imm32_low imm16))
  rw [shiftAmount, ← hlow, Nat.mod_mod_of_dvd _ (by decide)]

/-- Shifting `i32` left by 16 leaves the field above 16 zeros: the copies of its sign are gone (R160). -/
theorem upperImm_eq_append (imm16 : BitVec 16) : upperImm imm16 = imm16 ++ 0#16 := by
  rw [upperImm, BitVec.shiftLeft_eq_concat_of_lt (by decide), imm32_low]
  rfl

/-! Two shifts in turn are one shift by the sum of the amounts, as exact integers. -/

theorem toNat_shiftLeft_shiftLeft (v : Word) (m k : Nat) : (v <<< m <<< k).toNat = v.toNat * 2 ^ (m + k) % 2 ^ 32 := by
  rw [← BitVec.shiftLeft_add, BitVec.toNat_shiftLeft, Nat.shiftLeft_eq]

theorem toNat_ushiftRight_ushiftRight (v : Word) (m k : Nat) : (v >>> m >>> k).toNat = v.toNat / 2 ^ (m + k) := by
  rw [← BitVec.shiftRight_add, BitVec.toNat_ushiftRight, Nat.shiftRight_eq_div_pow]

theorem toInt_sshiftRight_sshiftRight (v : Word) (m k : Nat) :
    ((v.sshiftRight m).sshiftRight k).toInt = v.toInt / 2 ^ (m + k) := by
  rw [← BitVec.sshiftRight_add, BitVec.toInt_sshiftRight, Int.shiftRight_eq_div_pow, Nat.cast_pow, Nat.cast_ofNat]

/-- Settles O42: each instruction writes its result and advances. -/
theorem immediateLogicResults : Obligations.ImmediateLogicResults := by
  intro rd rs1 imm16 s
  refine ⟨?andi, ?ori, ?xori⟩
  case andi | ori | xori => exact computes_of_writeAndAdvance (opcodeOf_pack ..) rfl

/-- Settles O43: each instruction shifts by the register's amount and then by the immediate's, which is one shift by their
sum. -/
theorem shiftsByTwoAmounts : Obligations.ShiftsByTwoAmounts := by
  intro rd rs1 rs2 imm16 s
  rw [← shiftAmount_imm32]
  refine ⟨⟨_, computes_of_writeAndAdvance (opcodeOf_pack ..) rfl, ?sll⟩,
    ⟨_, computes_of_writeAndAdvance (opcodeOf_pack ..) rfl, ?srl⟩,
    ⟨_, computes_of_writeAndAdvance (opcodeOf_pack ..) rfl, ?sra⟩⟩
  case sll => exact toNat_shiftLeft_shiftLeft ..
  case srl => exact toNat_ushiftRight_ushiftRight ..
  case sra => exact toInt_sshiftRight_sshiftRight ..

/-- Settles O44: the sum is written as it is; a truth word is 1 or 0 as its condition decides. -/
theorem addAndCompareImmediateResults : Obligations.AddAndCompareImmediateResults := by
  intro rd rs1 rs2 imm16 s i32
  refine ⟨?add, ?slti, ?sltiu⟩
  case add => exact computes_of_writeAndAdvance (opcodeOf_pack ..) rfl
  case slti => exact computes_ite_of_writeAndAdvance (ltSigned_iff _ i32) (opcodeOf_pack ..) rfl
  case sltiu => exact computes_ite_of_writeAndAdvance (ltUnsigned_iff _ i32) (opcodeOf_pack ..) rfl

/-- Settles O45: the upper immediate is the field above 16 zeros. -/
theorem upperImmediateResults : Obligations.UpperImmediateResults := by
  intro rd imm16 s
  rw [← upperImm_eq_append]
  refine ⟨?lui, ?auipc⟩
  case lui | auipc => exact computes_of_writeAndAdvance (opcodeOf_pack ..) rfl

end Sys2Proof.Machine

namespace Sys2Proof.Machine

/-! ## Loads that complete -/

/-! The low bits of a memory read are the bytes read, so what a narrow load widens is those bytes (R11, R45). -/

theorem setWidth_memRead_one (m : Memory) (p : Nat) : (memRead m p 1).setWidth 8 = m.read p := by
  rw [memRead_one, BitVec.setWidth_setWidth_of_le _ (by decide), BitVec.setWidth_eq]

theorem setWidth_memRead_two (m : Memory) (p : Nat) : (memRead m p 2).setWidth 16 = m.read (p + 1) ++ m.read p := by
  rw [memRead_two, BitVec.setWidth_setWidth_of_le _ (by decide), BitVec.setWidth_eq]

section CompletedAccess

variable {op : BitVec 7} {i : Instr} {s : State} {rd base value : Reg} {imm16 : BitVec 16} {w : Width}
  {f : Word → Word} {v : Word}

/-- What an instruction that is a load does when its access passes the checks of R49. -/
theorem computes_of_loadTo (ho : opcodeOf (encode i) = op) (h : exec i s = loadTo rd base imm16 w f s)
    (hin : (effAddr s base imm16).toNat < 0x80000000 ∧
      (effAddr s base imm16).toNat + widthBytes w ≤ s.launch.memLen)
    (hal : (effAddr s base imm16).toNat % widthBytes w = 0)
    (hv : f (memRead s.mem (effAddr s base imm16).toNat (widthBytes w)) = v) : Computes op i rd v s :=
  computes_of_writeAndAdvance ho (hv ▸ h.trans (loadTo_completes hin hal))

/-! ## Stores that complete -/

/-- A memory write with any pc is a `StoreResult`. -/
theorem storeResult_memWrite (s : State) (p n : Nat) (v t : Word) :
    StoreResult s { s with mem := memWrite s.mem p n v, pc := t } p n v where
  stored _ hk := read_memWrite_add s.mem p v hk
  memory _ ha := read_memWrite_outside s.mem v ha
  registers _ := rfl
  exc := rfl
  launch := rfl
  draws := rfl

theorem storeFrom_completes
    (hin : (effAddr s base imm16).toNat < 0x80000000 ∧
      (effAddr s base imm16).toNat + widthBytes w ≤ s.launch.memLen)
    (hal : (effAddr s base imm16).toNat % widthBytes w = 0)
    (hwritable : ∀ k, k < widthBytes w → isReadOnly s.launch ((effAddr s base imm16).toNat + k) = false) :
    storeFrom value base imm16 w s =
      advance { s with mem := memWrite s.mem (effAddr s base imm16).toNat (widthBytes w) (s.getReg value) } := by
  obtain ⟨hout, -⟩ | ⟨-, hmod, -⟩ | ⟨-, -, ⟨k, hk, hro⟩, -⟩ | ⟨-, -, -, hst⟩ :=
    store_cases s (effAddr s base imm16) (widthBytes w) (s.getReg value)
  · exact absurd hin hout
  · exact absurd hal hmod
  · exact absurd hro (ne_true_of_eq_false (hwritable k hk))
  · rw [storeFrom, hst]

/-- What an instruction that is a store does when its access passes the checks of R50. -/
theorem stores_of_storeFrom (ho : opcodeOf (encode i) = op) (h : exec i s = storeFrom value base imm16 w s)
    (hin : (effAddr s base imm16).toNat < 0x80000000 ∧
      (effAddr s base imm16).toNat + widthBytes w ≤ s.launch.memLen)
    (hal : (effAddr s base imm16).toNat % widthBytes w = 0)
    (hwritable : ∀ k, k < widthBytes w → isReadOnly s.launch ((effAddr s base imm16).toNat + k) = false) :
    Stores op i (effAddr s base imm16).toNat (widthBytes w) (s.getReg value) s :=
  ⟨ho, _, h.trans ((storeFrom_completes hin hal hwritable).trans (advance_eq_next.mpr rfl)),
    storeResult_memWrite .., rfl⟩

end CompletedAccess

/-- Settles O46: each load passes the checks and writes its bytes, widened; a byte is always aligned. -/
theorem loadsDeliverTheBytes : Obligations.LoadsDeliverTheBytes := by
  intro rd rs1 imm16 s p half word hneg
  have hbyte : (memRead s.mem p 1).setWidth 8 = s.mem.read p := setWidth_memRead_one s.mem p
  have hhalf : (memRead s.mem p 2).setWidth 16 = half := setWidth_memRead_two s.mem p
  have hword : memRead s.mem p 4 = word := memRead_four s.mem p
  refine ⟨fun hlen => ⟨?lb, ?lbu⟩, fun hlen hal => ⟨?lh, ?lhu⟩, fun hlen hal => ?lw⟩
  case lb =>
    exact computes_of_loadTo (opcodeOf_pack ..) rfl ⟨hneg, hlen⟩ (Nat.mod_one p) (congrArg (BitVec.signExtend 32) hbyte)
  case lbu =>
    exact computes_of_loadTo (opcodeOf_pack ..) rfl ⟨hneg, hlen⟩ (Nat.mod_one p) (congrArg (BitVec.setWidth 32) hbyte)
  case lh =>
    exact computes_of_loadTo (opcodeOf_pack ..) rfl ⟨hneg, hlen⟩ hal (congrArg (BitVec.signExtend 32) hhalf)
  case lhu =>
    exact computes_of_loadTo (opcodeOf_pack ..) rfl ⟨hneg, hlen⟩ hal (congrArg (BitVec.setWidth 32) hhalf)
  case lw => exact computes_of_loadTo (opcodeOf_pack ..) rfl ⟨hneg, hlen⟩ hal hword

/-- Settles O48: each store passes the checks and puts its bytes; a byte is always aligned, and its only byte is the one at
the address. -/
theorem storesPutTheBytes : Obligations.StoresPutTheBytes := by
  intro rs1 rs2 imm16 s p v hneg
  refine ⟨fun hlen hwritable => ?sb, fun hlen hal hwritable => ?sh, fun hlen hal hwritable => ?sw⟩
  case sb =>
    have honly : ∀ k, k < 1 → isReadOnly s.launch (p + k) = false := fun | 0, _ => hwritable
    exact stores_of_storeFrom (w := .byte) (opcodeOf_pack ..) rfl ⟨hneg, hlen⟩ (Nat.mod_one p) honly
  case sh => exact stores_of_storeFrom (w := .half) (opcodeOf_pack ..) rfl ⟨hneg, hlen⟩ hal hwritable
  case sw => exact stores_of_storeFrom (w := .word) (opcodeOf_pack ..) rfl ⟨hneg, hlen⟩ hal hwritable

end Sys2Proof.Machine

namespace Sys2Proof.Machine

/-! ## Jumps and branches -/

section Transfer

variable {op : BitVec 7} {i : Instr} {s : State}

/-- What an instruction that ends in `linkAndGoTo` does. -/
theorem jumps_of_linkAndGoTo {rd : Reg} {p : Word} (ho : opcodeOf (encode i) = op)
    (h : exec i s = linkAndGoTo rd p s) :
    opcodeOf (encode i) = op ∧ ∃ t, exec i s = .next t ∧ RegisterResult s t rd (s.pc + 4) ∧ t.pc = p :=
  ⟨ho, _, h.trans (linkAndGoTo_eq_next.mpr rfl), registerResult_setReg .., rfl⟩

/-- What an instruction that is a branch on a condition `c` does, where `c` decides `P`. -/
theorem branches_of_branchIf {c : Bool} {P : Prop} {imm16 : BitVec 16} (hc : c = true ↔ P)
    (ho : opcodeOf (encode i) = op) (h : exec i s = branchIf c imm16 s) :
    opcodeOf (encode i) = op ∧ (P → exec i s = .next { s with pc := s.pc + imm16.signExtend 32 }) ∧
      (¬P → exec i s = .next { s with pc := s.pc + 4 }) := by
  refine ⟨ho, fun hP => ?taken, fun hP => ?notTaken⟩
  case taken =>
    have htrue : c = true := hc.mpr hP
    rw [h, branchIf_eq_next, if_pos htrue, imm32]
  case notTaken =>
    have hfalse : ¬c = true := fun htrue => hP (hc.mp htrue)
    rw [h, branchIf_eq_next, if_neg hfalse]

end Transfer

/-- Settles O51: both jumps link, to a target computed on entry. -/
theorem jumpResults : Obligations.JumpResults := by
  intro rd rs1 imm16 s
  refine ⟨?jal, ?jalr⟩
  case jal | jalr => exact jumps_of_linkAndGoTo (opcodeOf_pack ..) rfl

/-- Settles O52: each branch goes by a test that decides its condition. -/
theorem branchResults : Obligations.BranchResults := by
  intro rs1 rs2 imm16 s a b goes
  refine ⟨?beq, ?bne, ?blt, ?bltu, ?bge, ?bgeu⟩
  case beq => exact branches_of_branchIf beq_iff_eq (opcodeOf_pack ..) rfl
  case bne => exact branches_of_branchIf bne_iff_ne (opcodeOf_pack ..) rfl
  case blt => exact branches_of_branchIf (ltSigned_iff a b) (opcodeOf_pack ..) rfl
  case bltu => exact branches_of_branchIf (ltUnsigned_iff a b) (opcodeOf_pack ..) rfl
  case bge => exact branches_of_branchIf (geSigned_iff a b) (opcodeOf_pack ..) rfl
  case bgeu => exact branches_of_branchIf (geUnsigned_iff a b) (opcodeOf_pack ..) rfl

end Sys2Proof.Machine

namespace Sys2Proof.Machine

/-! ## Breakpoint and invalid words -/

theorem exec_invalid (opcode : BitVec 7) (rest : BitVec 25) (s : State) :
    exec (.invalid opcode rest) s = raise .instr s := rfl

/-- A halted machine makes no step (R241; log 7). -/
theorem step_of_halted {s : State} (h : s.exc ≠ 0) : step s = .fault (.halted s.exc) := if_pos h

/-- No opcode of R75 lies in a range that R77 and R78 leave without an instruction. -/
theorem assigned_not_in_gap : ∀ op ∈ assignedOpcodes,
    ¬(op.toNat ≤ 0x03 ∨ op.toNat = 0x0e ∨ op.toNat = 0x0f ∨ (0x1d ≤ op.toNat ∧ op.toNat ≤ 0x3e) ∨
      (0x40 ≤ op.toNat ∧ op.toNat ≤ 0x43) ∨ op.toNat = 0x47 ∨ (0x60 ≤ op.toNat ∧ op.toNat ≤ 0x7e)) := by decide

theorem decode_eq_invalid {w : Word} (h : opcodeOf w ∉ assignedOpcodes) :
    decode w = .invalid (opcodeOf w) (restOf w) :=
  instrOf_eq_invalid (by simpa using h) ..

/-- Settles O53: the word of ebreak evaluates to its bits, and ebreak only advances. -/
theorem breakpointIsANoOp : Obligations.BreakpointIsANoOp := fun _ =>
  ⟨by decide, advance_eq_next.mpr rfl⟩

/-- Settles O54: an opcode in a gap of the opcode map is not assigned, so its word decodes to `invalid`, which raises instr; a
machine whose exception status is not 0 is halted. -/
theorem invalidWordsRaiseInstr : Obligations.InvalidWordsRaiseInstr := by
  have hraise : ∀ opcode rest s, exec (.invalid opcode rest) s = .next { s with exc := 0x03 } :=
    fun opcode rest s => (exec_invalid opcode rest s).trans (raise_eq_next.mpr rfl)
  refine ⟨hraise, fun w s hgap => ?word, fun s => ?halt⟩
  case word =>
    have hun : opcodeOf w ∉ assignedOpcodes := fun hop => assigned_not_in_gap _ hop hgap
    rw [decode_eq_invalid hun, hraise]
  case halt => exact step_of_halted (Exc.code_ne_zero .instr)

/-! ## Extension calls -/

/-- Z reads 0 after any register write, the register written reads the value, and any other reads as before (R20, R21). -/
theorem State.getReg_setReg_ite (s : State) (rd r : Reg) (v : Word) :
    (s.setReg rd v).getReg r = if r = .Z then 0 else if r = rd then v else s.getReg r := by
  by_cases hz : r = .Z
  · rw [if_pos hz, hz, State.getReg_Z]
  · rw [if_neg hz]
    by_cases hr : r = rd
    · rw [if_pos hr, ← hr, State.getReg_setReg_self s v hz]
    · rw [if_neg hr, State.getReg_setReg_ne s v hr]

/-- The answer of meta.check_ext, by the ids at which `EXT` is defined (R212; log 14). -/
theorem checkExtAnswer_eq_ite (l : Launch) (id : Word) :
    checkExtAnswer l id = if id = 0x00000003 ∨ id ∈ l.extensions then l.checkExtYes else l.checkExtNo := by
  simp only [checkExtAnswer, extSupported_iff, BitVec.ofNat_eq_ofNat]

section ExtensionCall

variable {rd : Reg} {id input v : Word} {ws : List Host.Cell} {s : State}

theorem exec_ecall (rd rs1 rs2 : Reg) (imm16 : BitVec 16) (s : State) :
    exec (.ecall rd rs1 rs2 imm16) s = callExtension rd (s.getReg rs2 + imm16.signExtend 32) (s.getReg rs1) s := rfl

/-- meta.check_ext is always defined, and its answer is written (R212). -/
theorem callExtension_metaCheckExt (rd : Reg) (input : Word) (s : State) :
    callExtension rd metaCheckExt input s = writeAndAdvance rd (checkExtAnswer s.launch input) s := by
  simp [callExtension, extSupported_metaCheckExt]

/-- Any other id at which `EXT` is defined is answered by its handler (R211). -/
theorem callExtension_eq_callHandler (hne : id ≠ metaCheckExt) (hext : id ∈ s.launch.extensions) :
    callExtension rd id input s = callHandler rd id input s := by
  have hsup : extSupported s.launch id = true := (extSupported_iff s.launch id).mpr (.inr hext)
  simp [callExtension, hsup, hne]

theorem callHandler_of_err (h : Config.extAnswer s.launch s.draws id input s.mem = .err) :
    callHandler rd id input s = raise .exterr s := by
  rw [callHandler, h]

theorem callHandler_of_ok (h : Config.extAnswer s.launch s.draws id input s.mem = .ok v ws) :
    callHandler rd id input s =
      writeAndAdvance rd v { s with mem := extWrites s.launch ws s.mem, draws := s.draws + 1 } := by
  rw [callHandler, h]

end ExtensionCall

/-- The last value that a list of writes gives to an address, if it holds one. -/
def lastWritten (ws : List Host.Cell) (a : Nat) : Option Byte := (ws.reverse.find? fun c => c.1 == a).map Prod.snd

/-- A write counts for its address where no later one does. -/
theorem lastWritten_cons (b : Nat) (u : Byte) (ws : List Host.Cell) (a : Nat) :
    lastWritten ((b, u) :: ws) a = (lastWritten ws a).or (if a = b then some u else none) := by
  rw [lastWritten, List.reverse_cons, List.find?_append, Option.map_or, ← lastWritten]
  by_cases hab : a = b
  · simp [hab]
  · simp [hab, Ne.symm hab]

/-- A writable byte inside memory holds the last value the handler wrote to it (R211). -/
theorem read_extWrites_writable {l : Launch} {a : Nat} (hin : a < l.memLen) (hw : isReadOnly l a = false) (m : Memory)
    (ws : List Host.Cell) : (extWrites l ws m).read a = (lastWritten ws a).getD (m.read a) := by
  induction ws generalizing m with
  | nil => rfl
  | cons c ws ih =>
    obtain ⟨b, u⟩ := c
    rw [extWrites, ih, lastWritten_cons]
    cases lastWritten ws a with
    | some x => rfl
    | none =>
      -- No later write is for `a`, so this one decides what a read of `a` finds, if it is for `a`.
      by_cases hab : a = b
      · subst hab
        simp [hin, hw, Memory.read_write]
      · rw [if_neg hab, Option.none_or, Option.getD_none, Option.getD_none]
        split
        · rw [Memory.read_write, if_neg hab]
        · rfl

/-- A handler's writes reach the writable bytes inside memory and no other byte (R211, D15). -/
theorem read_extWrites (l : Launch) (m : Memory) (ws : List Host.Cell) (a : Nat) :
    (extWrites l ws m).read a =
      if a < l.memLen ∧ isReadOnly l a = false then (lastWritten ws a).getD (m.read a) else m.read a := by
  by_cases h : a < l.memLen ∧ isReadOnly l a = false
  · obtain ⟨hin, hw⟩ := h
    rw [if_pos ⟨hin, hw⟩, read_extWrites_writable hin hw]
  · have hprot : isReadOnly l a = true ∨ l.memLen ≤ a := by
      rcases Nat.lt_or_ge a l.memLen with hin | hout
      · exact .inl (eq_true_of_ne_false fun hw => h ⟨hin, hw⟩)
      · exact .inr hout
    rw [if_neg h, read_extWrites_protected hprot]

/-- Settles O56: the id is that of meta.check_ext, whose answer ecall writes. -/
theorem checkExtTellsWhatIsSupported : Obligations.CheckExtTellsWhatIsSupported := by
  intro rd rs1 rs2 imm16 s hid
  rw [← checkExtAnswer_eq_ite]
  refine computes_of_writeAndAdvance (opcodeOf_pack ..) ?_
  rw [exec_ecall, hid]
  exact callExtension_metaCheckExt ..

/-- Settles O57: ecall of such an id is its handler's call, which raises exterr for `err` and else writes the value to rd and the
bytes to memory. -/
theorem handlerAnswersAreDelivered : Obligations.HandlerAnswersAreDelivered := by
  intro rd rs1 rs2 imm16 s id hne hext
  have hcall : exec (.ecall rd rs1 rs2 imm16) s = callHandler rd id (s.getReg rs1) s :=
    (exec_ecall ..).trans (callExtension_eq_callHandler hne hext)
  split
  next herr =>
    rw [hcall, callHandler_of_err herr]
    exact raise_eq_next.mpr rfl
  next v ws hok =>
    rw [hcall, callHandler_of_ok hok]
    refine ⟨_, writeAndAdvance_eq_next.mpr rfl, fun r => ?registers, fun a => ?memory, rfl, rfl, rfl, rfl⟩
    case registers => exact State.getReg_setReg_ite s rd r v
    case memory => exact read_extWrites s.launch s.mem ws a

end Sys2Proof.Machine

namespace Sys2Proof.Machine

/-! ## Every instruction answers a next state -/

theorem loadTo_answers (rd base : Reg) (imm16 : BitVec 16) (w : Width) (f : Word → Word) (s : State) :
    ∃ t, loadTo rd base imm16 w f s = .next t := by
  unfold loadTo
  cases load s (effAddr s base imm16) (widthBytes w) with
  | error e => exact ⟨_, raise_eq_next.mpr rfl⟩
  | ok v => exact ⟨_, writeAndAdvance_eq_next.mpr rfl⟩

theorem storeFrom_answers (value base : Reg) (imm16 : BitVec 16) (w : Width) (s : State) :
    ∃ t, storeFrom value base imm16 w s = .next t := by
  unfold storeFrom
  cases store s (effAddr s base imm16) (widthBytes w) (s.getReg value) with
  | error e => exact ⟨_, raise_eq_next.mpr rfl⟩
  | ok u => exact ⟨_, advance_eq_next.mpr rfl⟩

/-- A handler always answers, with `err` or with a value (D15; log 15). -/
theorem callHandler_answers (rd : Reg) (id input : Word) (s : State) : ∃ t, callHandler rd id input s = .next t := by
  cases hanswer : Config.extAnswer s.launch s.draws id input s.mem with
  | err => exact ⟨_, (callHandler_of_err hanswer).trans (raise_eq_next.mpr rfl)⟩
  | ok v ws => exact ⟨_, (callHandler_of_ok hanswer).trans (writeAndAdvance_eq_next.mpr rfl)⟩

/-- An id at which `EXT` is not defined raises extmiss (R236). -/
theorem callExtension_unsupported {rd : Reg} {id input : Word} {s : State} (hne : id ≠ metaCheckExt)
    (hext : id ∉ s.launch.extensions) : callExtension rd id input s = raise .extmiss s := by
  simp [callExtension, extSupported, hne, hext]

theorem callExtension_answers (rd : Reg) (id input : Word) (s : State) :
    ∃ t, callExtension rd id input s = .next t := by
  by_cases hmeta : id = metaCheckExt
  · rw [hmeta, callExtension_metaCheckExt]
    exact ⟨_, writeAndAdvance_eq_next.mpr rfl⟩
  · by_cases hext : id ∈ s.launch.extensions
    · rw [callExtension_eq_callHandler hmeta hext]
      exact callHandler_answers ..
    · rw [callExtension_unsupported hmeta hext]
      exact ⟨_, raise_eq_next.mpr rfl⟩

/-- Settles O23: each shared operation answers a next state, and every instruction is one of them. -/
theorem everyInstructionAnswersANextState : Obligations.EveryInstructionAnswersANextState := by
  intro i s
  cases exec_shape i s with
  | raises _ he => exact ⟨_, he.trans (raise_eq_next.mpr rfl)⟩
  | writes _ he => exact ⟨_, he.trans (writeAndAdvance_eq_next.mpr rfl)⟩
  | advances _ he => exact ⟨_, he.trans (advance_eq_next.mpr rfl)⟩
  | links _ he => exact ⟨_, he.trans (linkAndGoTo_eq_next.mpr rfl)⟩
  | branches _ he => exact ⟨_, he.trans (branchIf_eq_next.mpr rfl)⟩
  | loads _ he => exact he ▸ loadTo_answers ..
  | stores _ he => exact he ▸ storeFrom_answers ..
  | calls _ he => exact he ▸ callExtension_answers ..

/-! ## The exception status after an instruction -/

section ExceptionStatus

variable {s t : State} {rd base value : Reg} {x p id input : Word} {c : Bool} {imm16 : BitVec 16} {w : Width}
  {f : Word → Word}

theorem raise_exc {e : Exc} (h : raise e s = .next t) : t.exc = e.code := by
  cases raise_eq_next.mp h
  rfl

theorem advance_exc (h : advance s = .next t) : t.exc = s.exc := by
  cases advance_eq_next.mp h
  rfl

theorem writeAndAdvance_exc (h : writeAndAdvance rd x s = .next t) : t.exc = s.exc := by
  cases writeAndAdvance_eq_next.mp h
  rfl

theorem linkAndGoTo_exc (h : linkAndGoTo rd p s = .next t) : t.exc = s.exc := by
  cases linkAndGoTo_eq_next.mp h
  rfl

theorem branchIf_exc (h : branchIf c imm16 s = .next t) : t.exc = s.exc := by
  cases branchIf_eq_next.mp h
  rfl

theorem loadTo_exc (h : loadTo rd base imm16 w f s = .next t) :
    t.exc = s.exc ∨ t.exc = Exc.lbounds.code ∨ (t.exc = Exc.lalign.code ∧ w ≠ .byte) := by
  obtain ⟨_, rfl | ⟨rfl, hw⟩, rfl⟩ | rfl := loadTo_cases h
  · exact .inr (.inl rfl)
  · exact .inr (.inr ⟨rfl, hw⟩)
  · exact .inl rfl

theorem storeFrom_exc (h : storeFrom value base imm16 w s = .next t) :
    t.exc = s.exc ∨ t.exc = Exc.sbounds.code ∨ (t.exc = Exc.salign.code ∧ w ≠ .byte) ∨ t.exc = Exc.sro.code := by
  obtain ⟨_, rfl | ⟨rfl, hw⟩ | rfl, rfl⟩ | ⟨-, rfl⟩ := storeFrom_cases h
  · exact .inr (.inl rfl)
  · exact .inr (.inr (.inl ⟨rfl, hw⟩))
  · exact .inr (.inr (.inr rfl))
  · exact .inl rfl

theorem callHandler_exc (h : callHandler rd id input s = .next t) : t.exc = s.exc ∨ t.exc = Exc.exterr.code := by
  cases hanswer : Config.extAnswer s.launch s.draws id input s.mem with
  | err =>
    rw [callHandler_of_err hanswer] at h
    exact .inr (raise_exc h)
  | ok v ws =>
    rw [callHandler_of_ok hanswer] at h
    have hkept := writeAndAdvance_exc h
    exact .inl hkept

theorem callExtension_exc (h : callExtension rd id input s = .next t) :
    t.exc = s.exc ∨ t.exc = Exc.extmiss.code ∨ t.exc = Exc.exterr.code := by
  obtain ⟨_, rfl | rfl, rfl⟩ | rfl | ⟨_, _, rfl⟩ := callExtension_cases h
  · exact .inr (.inl rfl)
  · exact .inr (.inr rfl)
  · exact .inl rfl
  · exact .inl rfl

/-- A call of an id at which `EXT` is defined raises at most exterr (R211, R212, D15). -/
theorem callExtension_supported_exc (hsup : id = metaCheckExt ∨ id ∈ s.launch.extensions)
    (h : callExtension rd id input s = .next t) : t.exc = s.exc ∨ t.exc = Exc.exterr.code := by
  by_cases hmeta : id = metaCheckExt
  · rw [hmeta, callExtension_metaCheckExt] at h
    exact .inl (writeAndAdvance_exc h)
  · rw [callExtension_eq_callHandler hmeta (hsup.resolve_left hmeta)] at h
    exact callHandler_exc h

end ExceptionStatus

/-- Settles O19, by the exceptions of the shared operation that each instruction is; the access of a byte is always aligned. -/
theorem instructionsRaiseOnlyTheirExceptions : Obligations.InstructionsRaiseOnlyTheirExceptions := by
  intro i s t h
  cases i with
  | invalid => exact raise_exc h
  | and | or | xor | sub | min | minu | max | maxu | slt | sltu | mul | mulh | mulhu | mulhsu | div | divu | rem | remu
  | revb | revh | clz | ctz | pcnt | andi | ori | xori | sll | srl | sra | add | slti | sltiu | lui | auipc =>
    exact writeAndAdvance_exc h
  | ebreak => exact advance_exc h
  | jal | jalr => exact linkAndGoTo_exc h
  | beq | bne | blt | bltu | bge | bgeu => exact branchIf_exc h
  | lb | lbu =>
    obtain hkept | hbounds | ⟨-, hw⟩ := loadTo_exc h
    · exact .inl hkept
    · exact .inr hbounds
    · exact absurd rfl hw
  | lh | lhu | lw => exact (loadTo_exc h).imp_right (Or.imp_right And.left)
  | sb =>
    obtain hkept | hbounds | ⟨-, hw⟩ | hro := storeFrom_exc h
    · exact .inl hkept
    · exact .inr (.inl hbounds)
    · exact absurd rfl hw
    · exact .inr (.inr hro)
  | sh | sw => exact (storeFrom_exc h).imp_right (Or.imp_right (Or.imp_left And.left))
  | ecall => exact callExtension_exc h

/-- Settles O55: extmiss is raised for an id at which `EXT` is not defined; meta.check_ext raises nothing, and a handler at most
exterr. -/
theorem unsupportedExtensionRaisesExtmiss : Obligations.UnsupportedExtensionRaisesExtmiss := by
  intro rd rs1 rs2 imm16 s id
  refine ⟨fun hne hext => ?unsupported, fun hs hsup t h => ?supported⟩
  case unsupported =>
    rw [exec_ecall, callExtension_unsupported hne hext]
    exact raise_eq_next.mpr rfl
  case supported =>
    obtain hkept | herr := callExtension_supported_exc hsup h
    · rw [hkept, hs]
      decide
    · rw [herr]
      decide

/-- From a running state, an instruction that raises changes the exception status alone, to a code that can occur (R240, R243). -/
theorem exec_raised {i : Instr} {s t : State} (hs : s.exc = 0) (h : exec i s = .next t) (hx : t.exc ≠ 0) :
    t = { s with exc := t.exc } ∧ legalExc t.exc = true := by
  cases exec_effect h with
  | raised he ht => subst ht; exact ⟨rfl, he⟩
  | moved ht | wrote _ ht | stored _ ht | answered _ ht => subst ht; exact absurd hs hx

/-- Settles O18: a step raises at its fetch or by its instruction, and either way only the exception status changes. -/
theorem raisingChangesNothingElse : Obligations.RaisingChangesNothingElse := by
  intro s t h hx
  obtain ⟨hs, -, ⟨e, -, rfl | rfl | rfl, rfl⟩ | ⟨w, -, hexec⟩⟩ := step_cases h
  · exact ⟨rfl, rfl⟩
  · exact ⟨rfl, rfl⟩
  · exact ⟨rfl, rfl⟩
  · exact exec_raised hs hexec hx

/-- Settles O11: the codes in the order of the table. -/
theorem exceptionCodesOfTheTable : Obligations.ExceptionCodesOfTheTable := rfl

end Sys2Proof.Machine

namespace Sys2Proof.Machine

/-! ## The cycle -/

section Cycle

variable {s : State}

theorem step_of_fetch_ok {w : Word} (hs : s.exc = 0) (hl : s.launch.wellFormed = true) (hf : fetch s = .ok w) :
    step s = exec (decode w) s := by
  simp [step, hs, hl, hf]

/-- A configuration that is no Capsule machine is refused (U18; log 22). -/
theorem step_of_illFormed (hs : s.exc = 0) (hl : ¬s.launch.wellFormed = true) :
    step s = .refused .notACapsuleMachine := by
  simp [step, hs, hl]

/-- Inside the text segment, and so inside memory, a multiple of 4 is fetched from (R51, R263). -/
theorem fetch_of_text (hl : s.launch.wellFormed = true) (hal : s.pc.toNat % 4 = 0)
    (hstart : s.launch.textStart ≤ s.pc.toNat) (hend : s.pc.toNat + 4 ≤ s.launch.textEnd) :
    fetch s = .ok (memRead s.mem s.pc.toNat 4) := by
  obtain ⟨hmax, -, htext, -⟩ := (wellFormed_iff _).mp hl
  obtain ⟨hout, -⟩ | ⟨-, hmod, -⟩ | ⟨-, -, hx, -⟩ | ⟨-, -, -, hf⟩ := fetch_cases s
  · exact absurd ⟨by omega, by omega⟩ hout
  · exact absurd hal hmod
  · exact absurd ⟨hstart, hend⟩ hx
  · exact hf

/-- The four bytes that a fetch reads, lowest address first, decode as the word it finds (R44). -/
theorem decodeBytes_fetched (m : Memory) (p : Nat) :
    decodeBytes [m.read p, m.read (p + 1), m.read (p + 2), m.read (p + 3)] = .ok (decode (memRead m p 4), []) := by
  rw [memRead_four]
  rfl

/-- A step with the pc at a word of the text segment runs that word. -/
theorem step_of_text (hs : s.exc = 0) (hl : s.launch.wellFormed = true) (hal : s.pc.toNat % 4 = 0)
    (hstart : s.launch.textStart ≤ s.pc.toNat) (hend : s.pc.toNat + 4 ≤ s.launch.textEnd) :
    step s = exec (decode (memRead s.mem s.pc.toNat 4)) s :=
  step_of_fetch_ok hs hl (fetch_of_text hl hal hstart hend)

end Cycle

/-- Settles O12: the word that the step fetches has these four bytes, and the step runs its decoding. -/
theorem stepRunsTheDecodedInstruction : Obligations.StepRunsTheDecodedInstruction := by
  intro s i hs hl hal hstart hend hdecode _
  rw [decodeBytes_fetched] at hdecode
  cases hdecode
  exact step_of_text hs hl hal hstart hend

/-- Settles O14, by the first check of the cycle. -/
theorem haltedMachineMakesNoStep : Obligations.HaltedMachineMakesNoStep := fun _ => step_of_halted

/-- Settles O15: each clause is the negation of a constraint of R263 or R8. -/
theorem illFormedLaunchIsRefused : Obligations.IllFormedLaunchIsRefused := by
  intro s hs hbroken
  refine step_of_illFormed hs fun hl => ?_
  obtain ⟨hmax, horder, htext, hdistinct⟩ := (wellFormed_iff _).mp hl
  obtain hlen | hreversed | hbeyond | heq := hbroken
  · omega
  · omega
  · omega
  · exact hdistinct heq

/-- Settles O16: the cycle raises a fetch exception or runs an instruction, which answers a next state (O23) and keeps the launch
parameters (O27). -/
theorem stepIsDefinedWhileRunning : Obligations.StepIsDefinedWhileRunning := by
  intro s hs hl
  cases hf : fetch s with
  | error e => exact ⟨_, (step_of_fetch_error hs hl hf).trans (raise_eq_next.mpr rfl), rfl⟩
  | ok w =>
    obtain ⟨t, hexec⟩ := everyInstructionAnswersANextState (decode w) s
    obtain ⟨hlaunch, -⟩ := launchAndDrawsAreKept _ _ _ hexec
    exact ⟨t, (step_of_fetch_ok hs hl hf).trans hexec, hlaunch⟩

/-! ## The word placed at the pc -/

/-- The configuration that loading a word at the pc gives: that of the state where the word is in its text segment, else one whose
text segment is that word (log 6). -/
theorem launchForFetch_cases (s : State) :
    ((s.launch.textStart ≤ s.pc.toNat ∧ s.pc.toNat + 4 ≤ s.launch.textEnd) ∧ s.launchForFetch = s.launch) ∨
      s.launchForFetch = { s.launch with
        memLen := Nat.max s.launch.memLen (s.pc.toNat + 4), textStart := s.pc.toNat, textEnd := s.pc.toNat + 4 } := by
  by_cases hc : (isExec s.launch s.pc.toNat && isExec s.launch (s.pc.toNat + 3) &&
      s.pc.toNat + 4 ≤ s.launch.memLen) = true
  · have htext := hc
    simp only [Bool.and_eq_true, isExec_iff] at htext
    exact .inl ⟨by omega, if_pos hc⟩
  · exact .inr (if_neg hc)

theorem launchForFetch_text (s : State) :
    s.launchForFetch.textStart ≤ s.pc.toNat ∧ s.pc.toNat + 4 ≤ s.launchForFetch.textEnd := by
  obtain ⟨htext, hl⟩ | hl := launchForFetch_cases s
  · rwa [hl]
  · rw [hl]
    exact ⟨Nat.le_refl _, Nat.le_refl _⟩

/-- Loading a word at an aligned pc below 2^31 keeps the configuration well formed: the word ends at 2^31 at most. -/
theorem launchForFetch_wellFormed {s : State} (hl : s.launch.wellFormed = true) (hal : s.pc.toNat % 4 = 0)
    (hlt : s.pc.toNat < 0x80000000) : s.launchForFetch.wellFormed = true := by
  obtain ⟨-, hkept⟩ | hraised := launchForFetch_cases s
  · rwa [hkept]
  · obtain ⟨hmax, -, -, hdistinct⟩ := (wellFormed_iff _).mp hl
    rw [hraised, wellFormed_iff]
    exact ⟨Nat.max_le.mpr ⟨hmax, by omega⟩, Nat.le_add_right .., Nat.le_max_right .., hdistinct⟩

/-- The word placed at the pc is what a fetch reads there. -/
theorem memRead_withFetchWord (s : State) (w : Word) :
    memRead (s.withFetchWord 32 w.toNat).mem s.pc.toNat 4 = w := by
  rw [State.withFetchWord_mem, memRead_memWrite_self, Nat.mod_eq_of_lt w.isLt, BitVec.ofNat_toNat]
  simp only [BitVec.setWidth_eq]

/-- Settles O59: the pc is a word of the text segment of a well-formed configuration, and the word there is the one placed. -/
theorem loadedWordIsTheNextInstruction : Obligations.LoadedWordIsTheNextInstruction := by
  intro s w hl hal hlt
  obtain ⟨hstart, hend⟩ := launchForFetch_text s
  have hstep := step_of_text (State.withFetchWord_exc s 32 w.toNat) (launchForFetch_wellFormed hl hal hlt) hal hstart hend
  rwa [State.withFetchWord_pc, memRead_withFetchWord] at hstep

/-! ## The end of a run -/

/-- Within `n` steps the run from `s` reaches a state with an exception, and every longer run is the halt by that exception (R241,
R254). -/
def HaltsWithin (n : Nat) (s : State) : Prop :=
  ∃ k t, k ≤ n ∧ Host.Core.run Sys2Proof.core k s = .next t ∧ t.exc ≠ 0 ∧
    ∀ j, Host.Core.run Sys2Proof.core (k + j + 1) s = .fault (.halted t.exc)

/-- A state with an exception is where its run ends. -/
theorem haltsWithin_of_exc {s : State} (hx : s.exc ≠ 0) (n : Nat) : HaltsWithin n s :=
  ⟨0, s, Nat.zero_le n, run_zero s, hx, fun _ => run_succ_of_fault (step_of_halted hx) _⟩

theorem HaltsWithin.of_step {n : Nat} {s u : State} (hstep : step s = .next u) (h : HaltsWithin n u) :
    HaltsWithin (n + 1) s := by
  obtain ⟨k, t, hk, hrun, hx, hhalt⟩ := h
  refine ⟨k + 1, t, Nat.succ_le_succ hk, (run_succ_of_next hstep k).trans hrun, hx, fun j => ?_⟩
  rw [Nat.add_right_comm k 1 j, run_succ_of_next hstep, hhalt]

/-- Settles O17, by induction on the number of steps: the first step is defined (O16), and its state is running, with a run of one
step fewer, or has the one exception. -/
theorem runsEndOnlyByAnException : Obligations.RunsEndOnlyByAnException := by
  intro n
  induction n with
  | zero => exact fun s hs _ => .inl ⟨s, run_zero s, hs⟩
  | succ n ih =>
    intro s hs hl
    obtain ⟨u, hstep, hlaunch⟩ := stepIsDefinedWhileRunning s hs hl
    by_cases hu : u.exc = 0
    · obtain ⟨t, hrun, ht⟩ | hhalts := ih u hu (hlaunch ▸ hl)
      · exact .inl ⟨t, (run_succ_of_next hstep n).trans hrun, ht⟩
      · exact .inr (HaltsWithin.of_step hstep hhalts)
    · exact .inr (HaltsWithin.of_step hstep (haltsWithin_of_exc hu n))

end Sys2Proof.Machine
